-- ==== Sys2Proof/Word.lean ====
section
/-! DEFINITION. The word types of the core (00_scope.md R5, R7, R8): unsigned bit vectors, bit 0 least significant. -/

namespace Sys2Proof

/-- A Nibble, "4-bit unsigned value, range 0–15" (R5); also the width of `op` and of `GP`. -/
abbrev Nibble := BitVec 4

/-- An 8-bit word of the key schedule, or one byte of a block (R8, R93). -/
abbrev Byte := BitVec 8

/-- A Block, a key or a round key: 16 bits (R5). -/
abbrev Word := BitVec 16

/-- A command word `cmd[19:0]` (R40). -/
abbrev CmdWord := BitVec 20

end Sys2Proof
end

