-- ==== Sys2Proof/Syntax.lean ====
section
/-! DEFINITION. The thirteen commands of 30_encoding.md R44, one constructor per row of spec/opcode_table.json. -/

namespace Sys2Proof

/-- A command with its operands (R41, R42). `ark` carries the two-bit field `n`; `n = 3` is reserved (R46). -/
inductive Instr where
  | nop
  | ldk (imm16 : Word)
  | lds (imm16 : Word)
  | kexp
  | ark (n : BitVec 2)
  | subnib
  | isubnib
  | shrow
  | mixcol
  | imixcol
  | enc
  | dec
  | gfmul (a b : Nibble)
  deriving DecidableEq, Repr

end Sys2Proof
end

