-- ==== Sys2Proof/WellFormed.lean ====
section
/-! DEFINITION. Which instruction terms some command word spells (30_encoding.md R42, R46). -/

namespace Sys2Proof

/-- The round-key index 3 is reserved; every other operand value is legal (R42, R46). -/
def Instr.wellFormed : Instr → Bool
  | .ark n => n != 3
  | .nop | .ldk _ | .lds _ | .kexp | .subnib | .isubnib | .shrow | .mixcol | .imixcol | .enc | .dec
  | .gfmul _ _ => true

end Sys2Proof
end

