-- ==== Sys2Proof/Decode.lean ====
section
/-! DEFINITION. Decoding of command words, total on all 2^20 of them (30_encoding.md R40 to R46), and the encoder. -/

namespace Sys2Proof

/-- The four formats of R41. -/
inductive Format where
  | z
  | i
  | n
  | g
  deriving DecidableEq, Repr

/-- Why a word spells no command (R43): a reserved opcode (R45) or a reserved field (R46). -/
inductive Rejection where
  | eopcode
  | efield
  deriving DecidableEq, Repr

/-- What a command word decodes to. -/
inductive Decoded where
  | command (i : Instr)
  | rejected (r : Rejection)
  deriving DecidableEq, Repr

/-- `op = cmd[19:16]` (R40). -/
def opField (w : CmdWord) : Nibble := w.extractLsb' 16 4

/-- `imm = cmd[15:0]` (R40). -/
def immField (w : CmdWord) : Word := w.extractLsb' 0 16

/-- `n = imm[1:0]` (R42). -/
def nField (imm : Word) : BitVec 2 := imm.extractLsb' 0 2

/-- `a = imm[7:4]` (R42). -/
def aField (imm : Word) : Nibble := imm.extractLsb' 4 4

/-- `b = imm[3:0]` (R42). -/
def bField (imm : Word) : Nibble := imm.extractLsb' 0 4

/-- Whether `imm` keeps the format's reserved fields at zero and, in format N, has `n != 3` (R41, R43, R46). -/
def fieldsLegal : Format → Word → Bool
  | .z, imm => imm == 0
  | .i, _ => true
  | .n, imm => imm.extractLsb' 2 14 == 0 && nField imm != 3
  | .g, imm => imm.extractLsb' 8 8 == 0

/-- The command `i` if its operand field is legal for its format, else `EFIELD` (R43). -/
def checkFields (f : Format) (imm : Word) (i : Instr) : Decoded :=
  if fieldsLegal f imm then .command i else .rejected .efield

/-- The opcode map of R44 with the format of each opcode (R41) and the operands cut from `imm` (R42); the opcode is
looked at first, so a reserved one (R45) is `EOPCODE` whatever `imm` (R43, R141). -/
def decodeFields (op : Nibble) (imm : Word) : Decoded :=
  match op.toNat with
  | 0x0 => checkFields .z imm .nop
  | 0x1 => checkFields .i imm (.ldk imm)
  | 0x2 => checkFields .i imm (.lds imm)
  | 0x3 => checkFields .z imm .kexp
  | 0x4 => checkFields .n imm (.ark (nField imm))
  | 0x5 => checkFields .z imm .subnib
  | 0x6 => checkFields .z imm .isubnib
  | 0x7 => checkFields .z imm .shrow
  | 0x8 => checkFields .z imm .mixcol
  | 0x9 => checkFields .z imm .imixcol
  | 0xA => checkFields .z imm .enc
  | 0xB => checkFields .z imm .dec
  | 0xC => checkFields .g imm (.gfmul (aField imm) (bField imm))
  | _ => .rejected .eopcode

/-- Decoding, total on all 2^20 words (R43). -/
def decode (w : CmdWord) : Decoded := decodeFields (opField w) (immField w)

/-- The opcode of each command (R44). -/
def Instr.opcode : Instr → Nibble
  | .nop => 0x0
  | .ldk _ => 0x1
  | .lds _ => 0x2
  | .kexp => 0x3
  | .ark _ => 0x4
  | .subnib => 0x5
  | .isubnib => 0x6
  | .shrow => 0x7
  | .mixcol => 0x8
  | .imixcol => 0x9
  | .enc => 0xA
  | .dec => 0xB
  | .gfmul _ _ => 0xC

/-- The operand field of each command, reserved fields zero (R41). -/
def Instr.immediate : Instr → Word
  | .ldk imm16 => imm16
  | .lds imm16 => imm16
  | .ark n => (0 : BitVec 14) ++ n
  | .gfmul a b => (0 : BitVec 8) ++ a ++ b
  | .nop | .kexp | .subnib | .isubnib | .shrow | .mixcol | .imixcol | .enc | .dec => 0

/-- The word that spells a command: `op` above `imm` (R40). -/
def encode (i : Instr) : CmdWord := i.opcode ++ i.immediate

/-- One row of the opcode map (R44): a word `w` spells the command when `w & mask = pattern`. -/
structure OpcodeRow where
  mnemonic : String
  format : Format
  pattern : CmdWord
  mask : CmdWord
  deriving DecidableEq, Repr

/-- The opcode map of R44, row by row. `ARK` has the further condition `n != 3`. -/
def opcodeMap : List OpcodeRow :=
  [ ⟨"NOP", .z, 0x00000, 0xFFFFF⟩,
    ⟨"LDK", .i, 0x10000, 0xF0000⟩,
    ⟨"LDS", .i, 0x20000, 0xF0000⟩,
    ⟨"KEXP", .z, 0x30000, 0xFFFFF⟩,
    ⟨"ARK", .n, 0x40000, 0xFFFFC⟩,
    ⟨"SUBNIB", .z, 0x50000, 0xFFFFF⟩,
    ⟨"ISUBNIB", .z, 0x60000, 0xFFFFF⟩ ] ++
  [ ⟨"SHROW", .z, 0x70000, 0xFFFFF⟩,
    ⟨"MIXCOL", .z, 0x80000, 0xFFFFF⟩,
    ⟨"IMIXCOL", .z, 0x90000, 0xFFFFF⟩,
    ⟨"ENC", .z, 0xA0000, 0xFFFFF⟩,
    ⟨"DEC", .z, 0xB0000, 0xFFFFF⟩,
    ⟨"GFMUL", .g, 0xC0000, 0xFFF00⟩ ]

/-- The row of a command, by its opcode (R44). -/
def Instr.row (i : Instr) : OpcodeRow := opcodeMap.getD i.opcode.toNat ⟨"", .z, 0, 0⟩

/-- The command in an outcome of decoding, if there is one. -/
def Decoded.command? : Decoded → Option Instr
  | .command i => some i
  | .rejected _ => none

/-- What the decoder reads from an instruction whose bits are `w`, bit 0 the least significant bit of the word. The
word is 20 parallel bits (R40, N9), so a bit above bit 19 leaves no command word (DESIGN CHOICE, log entry 10; safe). -/
def decodeTableWord (nbits w : Nat) : Option Instr :=
  if w % 2 ^ nbits < 2 ^ 20 then (decode (BitVec.ofNat 20 (w % 2 ^ nbits))).command? else none

end Sys2Proof
end

