-- ==== Sys2Proof/Config.lean ====
section
/-! DEFINITION. What is fixed for one core and never changes as it runs: the constants of 00_scope.md R5, the
substitution tables of R6, the open parameter of R7, and the bits this model puts under a register whose valid flag
reset clears. -/

namespace Sys2Proof

/-- A 2 by 2 matrix over GF(16), row by row. -/
structure Config.Mat2 where
  m00 : Nibble
  m01 : Nibble
  m10 : Nibble
  m11 : Nibble
  deriving DecidableEq, Repr

/-- The two substitution tables: sixteen nibbles each, and each undoes the other (R6, R70, R73). A structure with its
proofs, so that what is proved for every `Config.Boxes` holds whatever the tables' contents. -/
structure Config.Boxes where
  sbox : Vector Nibble 16
  isbox : Vector Nibble 16
  isbox_sbox : ∀ n : Nibble, isbox[(sbox[n.toNat]'n.isLt).toNat]'(BitVec.isLt _) = n
  sbox_isbox : ∀ n : Nibble, sbox[(isbox[n.toNat]'n.isLt).toNat]'(BitVec.isLt _) = n

/-- `SBOX[n]` (R8, R70): every index is populated, so a read cannot fail (R30). -/
def Config.Boxes.sub (c : Config.Boxes) (n : Nibble) : Nibble := c.sbox[n.toNat]'n.isLt

/-- `ISBOX[n]` (R8, R70). -/
def Config.Boxes.inv (c : Config.Boxes) (n : Nibble) : Nibble := c.isbox[n.toNat]'n.isLt

/-- The default tables of R71 and R72, which the spec itself takes from general knowledge (G1).
PRESUMED, log entry 3; unsafe for a core with other tables. -/
def Config.defaultBoxes : Config.Boxes where
  sbox := #v[0x9, 0x4, 0xA, 0xB, 0xD, 0x1, 0x8, 0x5, 0x6, 0x2, 0x0, 0x3, 0xC, 0xE, 0xF, 0x7]
  isbox := #v[0xA, 0x5, 0x9, 0xB, 0x1, 0x7, 0x8, 0xF, 0x6, 0x0, 0x2, 0x3, 0xC, 0x4, 0xD, 0xE]
  isbox_sbox := by decide
  sbox_isbox := by decide

/-- The tables of the machine: the parameter of R6 at its default. -/
def Config.boxes : Config.Boxes := Config.defaultBoxes

/-- `GF_POLY`, x⁴ + x + 1 (R5, R60), in the 8-bit container of R61. -/
def Config.gfPoly : Byte := 0b10011

/-- `MIX` (R5). -/
def Config.mix : Config.Mat2 := ⟨1, 4, 4, 1⟩

/-- `IMIX` (R5). -/
def Config.imix : Config.Mat2 := ⟨9, 2, 2, 9⟩

/-- `RCON1` (R5, R93). -/
def Config.rcon1 : Byte := 0x80

/-- `RCON2` (R5, R93). -/
def Config.rcon2 : Byte := 0x30

/-- How many cycles above one a command of an opcode takes: a free value, log entry 4. -/
opaque Config.extraCycles : Nibble → Nat

/-- `LATENCY(op)` (R7, R172): OPEN, a positive number of clock cycles. No rule and no definition reads it. -/
def Config.latency (op : Nibble) : Nat := Config.extraCycles op + 1

/-- The bits under `KEY`, `ST` and `RK[0..2]` after reset. The spec gives none (R21: "unspecified; no value").
DESIGN CHOICE, log entry 2; unsafe, since a proof about `State.reset` alone could lean on it. -/
def Config.resetWord : Word := 0

/-- The bits under `GP` after reset. The spec gives none (R21). DESIGN CHOICE, log entry 2; unsafe as above. -/
def Config.resetNibble : Nibble := 0

end Sys2Proof
end

