-- ==== Sys2Proof/Machine/State.lean ====
section
/-! DEFINITION. The state of the core (10_state.md R10 to R15), the host's pending moves (R22, R168), and the state
after reset (R21, R161). -/

namespace Sys2Proof.Machine

/-- `STATUS`, field by field (R15): four valid flags, the sticky fault flag and the fault code. The 8-bit whole is
`Status.toByte` (DESIGN CHOICE, log entry 9; safe). -/
structure Status where
  kv : Bool
  sv : Bool
  rkv : Bool
  gv : Bool
  err : Bool
  ecode : BitVec 3
  deriving DecidableEq, Repr

/-- The three round-key registers `RK[0]`, `RK[1]`, `RK[2]` (R13), always written together. -/
structure RoundKeys where
  k0 : Word
  k1 : Word
  k2 : Word
  deriving DecidableEq, Repr

/-- What the host drives on the pins at one rising clock edge at which the core could take a command: `rst`,
`cmd_valid` and `cmd` (R22, R160, R168). -/
structure Edge where
  rst : Bool
  cmdValid : Bool
  cmd : CmdWord
  deriving DecidableEq, Repr

/-- The seven registers of R10, and the model's own `inputs`: the edges the host will drive, the next one first; an
empty list is a host that presents nothing (DESIGN CHOICE, log entry 1). -/
structure State where
  key : Word
  st : Word
  rk : RoundKeys
  gp : Nibble
  status : Status
  inputs : List Edge
  deriving DecidableEq, Repr

/-- The reasons for which this machine stops with a fault: there are none. A fault of the core (R140) is an exception
that it takes and goes on from (R142, `State.takeFault`), and "Nothing in this hardware is stuck". Nobody raises a
value of this type; leaving it empty is safe (log entry 7). -/
inductive Fault where
  deriving DecidableEq, Repr

/-- The reasons for which this machine refuses an instruction. -/
inductive Refusal where
  /-- Raised only by an arm of `exec` whose instruction has no meaning yet; no arm does. Safe. -/
  | notModelled (mnemonic : String)
  deriving DecidableEq, Repr

/-- `STATUS` after reset: 0x00 (R21, R161). -/
def Status.reset : Status :=
  { kv := false, sv := false, rkv := false, gv := false, err := false, ecode := 0 }

/-- The state after reset (R21, R161), with no host move pending. The data registers' bits are the model's
(DESIGN CHOICE, log entry 2; unsafe): every valid flag is 0, so no command and no port can tell what they are. -/
def State.reset : State :=
  { key := Config.resetWord
    st := Config.resetWord
    rk := { k0 := Config.resetWord, k1 := Config.resetWord, k2 := Config.resetWord }
    gp := Config.resetNibble
    status := Status.reset
    inputs := [] }

end Sys2Proof.Machine
end

