-- ==== Sys2Proof/Machine/Operands.lean ====
section
/-! DEFINITION. The views of a 16-bit value (00_scope.md R8, 41_sbox_round_primitives.md R74, R75, 20_memory.md R31)
and the selection of a round key by the operand `n` (R42). Operand fields of a command word are cut in Decode.lean. -/

namespace Sys2Proof.Machine

/-- `nib(b, i)`: nibble 0 is the most significant (R8). -/
def nib (b : Word) (i : Nat) : Nibble := b.extractLsb' (12 - 4 * i) 4

/-- The block with nibbles `n0 ‖ n1 ‖ n2 ‖ n3` (R75). -/
def ofNibs (n0 n1 n2 n3 : Nibble) : Word := n0 ++ n1 ++ n2 ++ n3

/-- `hi(b) = b[15:8]` (R8); the first byte of a block (R31), `w0` of a key (R11). -/
def hi (b : Word) : Byte := b.extractLsb' 8 8

/-- `lo(b) = b[7:0]` (R8); the second byte of a block (R31), `w1` of a key (R11). -/
def lo (b : Word) : Byte := b.extractLsb' 0 8

/-- The block held as two bytes, the first one high (R31). -/
def ofBytes (first second : Byte) : Word := first ++ second

/-- The State, the 2 by 2 matrix of nibbles of R12, entry `s[r][c]` in field `src`. -/
structure Matrix where
  s00 : Nibble
  s10 : Nibble
  s01 : Nibble
  s11 : Nibble
  deriving DecidableEq, Repr

/-- `BlockToState(b)` (R74): `s[r][c] = nib(b, 2*c + r)`. -/
def blockToState (b : Word) : Matrix :=
  { s00 := nib b 0, s10 := nib b 1, s01 := nib b 2, s11 := nib b 3 }

/-- `StateToBlock(s) = s[0][0] ‖ s[1][0] ‖ s[0][1] ‖ s[1][1]` (R75). -/
def stateToBlock (m : Matrix) : Word := ofNibs m.s00 m.s10 m.s01 m.s11

/-- `RK[n]` (R42): 0, 1, 2 name the three round keys; 3 is reserved and names none. -/
def RoundKeys.get? (rk : RoundKeys) (n : BitVec 2) : Option Word :=
  match n.toNat with
  | 0 => some rk.k0
  | 1 => some rk.k1
  | 2 => some rk.k2
  | _ => none

end Sys2Proof.Machine
end

