-- ==== Sys2Proof/Machine/KeySchedule.lean ====
section
/-! DEFINITION. The key schedule as pure functions (42_key_schedule.md R90 to R93). -/

namespace Sys2Proof.Machine

/-- `RotNib(w) = w[3:0] ‖ w[7:4]` (R90). -/
def rotNib (w : Byte) : Byte := w.extractLsb' 0 4 ++ w.extractLsb' 4 4

/-- `SubWord(w) = SBOX[w[7:4]] ‖ SBOX[w[3:0]]` (R91). -/
def subWord (c : Config.Boxes) (w : Byte) : Byte := c.sub (w.extractLsb' 4 4) ++ c.sub (w.extractLsb' 0 4)

/-- `g(w, rcon)`: rotate, substitute, XOR (R92). -/
def keyG (c : Config.Boxes) (w rcon : Byte) : Byte := subWord c (rotNib w) ^^^ rcon

/-- `KeyExpansion(k) = (K0, K1, K2)` (R93). -/
def keyExpansion (c : Config.Boxes) (k : Word) : RoundKeys :=
  let w0 := hi k
  let w1 := lo k
  let w2 := w0 ^^^ keyG c w1 Config.rcon1
  let w3 := w2 ^^^ w1
  let w4 := w2 ^^^ keyG c w3 Config.rcon2
  let w5 := w4 ^^^ w3
  { k0 := ofBytes w0 w1, k1 := ofBytes w2 w3, k2 := ofBytes w4 w5 }

end Sys2Proof.Machine
end

