-- ==== Sys2Proof/Machine/Gf16.lean ====
section
/-! DEFINITION. Multiplication in GF(16) modulo x⁴ + x + 1 (40_gf16.md R60, R61). -/

namespace Sys2Proof.Machine

/-- The first loop of R61: the carry-less product of two nibbles in an 8-bit container. -/
def carrylessProduct (a b : Nibble) : Byte :=
  [0, 1, 2, 3].foldl (fun p i => if b.getLsbD i then p ^^^ (a.setWidth 8 <<< i) else p) 0

/-- The second loop of R61: for j = 7, 6, 5, 4, where the current `p` has bit `j` set, the reduction pattern aligned
with bit `j` is added. -/
def gfReduce (p : Byte) : Byte :=
  [7, 6, 5, 4].foldl (fun p j => if p.getLsbD j then p ^^^ (Config.gfPoly <<< (j - 4)) else p) p

/-- `GfMul(a, b)` (R61). -/
def gfMul (a b : Nibble) : Nibble :=
  if a = 0 ∨ b = 0 then 0 else (gfReduce (carrylessProduct a b)).extractLsb' 0 4

end Sys2Proof.Machine
end

