-- ==== Sys2Proof/Machine/Primitives.lean ====
section
/-! DEFINITION. The round primitives as pure functions on blocks (41_sbox_round_primitives.md R76 to R81). The
substitutions take the tables as an argument (00_scope.md R6). -/

namespace Sys2Proof.Machine

/-- `SubNib(b)` (R76): each of the four lanes through `SBOX`. -/
def subNib (c : Config.Boxes) (b : Word) : Word :=
  ofNibs (c.sub (nib b 0)) (c.sub (nib b 1)) (c.sub (nib b 2)) (c.sub (nib b 3))

/-- `InvSubNib(b)` (R77): each of the four lanes through `ISBOX`. -/
def invSubNib (c : Config.Boxes) (b : Word) : Word :=
  ofNibs (c.inv (nib b 0)) (c.inv (nib b 1)) (c.inv (nib b 2)) (c.inv (nib b 3))

/-- `ShiftRow(b) = n0 ‖ n3 ‖ n2 ‖ n1` (R78): the two entries of row 1 change places (C2). -/
def shiftRow (b : Word) : Word := ofNibs (nib b 0) (nib b 3) (nib b 2) (nib b 1)

/-- Row 0 of matrix times column (R79, R80; C9: the matrix stands on the left). -/
def matRow0 (m : Config.Mat2) (x y : Nibble) : Nibble := gfMul m.m00 x ^^^ gfMul m.m01 y

/-- Row 1 of matrix times column (R79, R80). -/
def matRow1 (m : Config.Mat2) (x y : Nibble) : Nibble := gfMul m.m10 x ^^^ gfMul m.m11 y

/-- A matrix applied to each of the two State columns, `(n0, n1)` and `(n2, n3)` (R79, R80, R89). -/
def mulColumns (m : Config.Mat2) (b : Word) : Word :=
  ofNibs (matRow0 m (nib b 0) (nib b 1)) (matRow1 m (nib b 0) (nib b 1))
    (matRow0 m (nib b 2) (nib b 3)) (matRow1 m (nib b 2) (nib b 3))

/-- `MixCol(b)` (R79). -/
def mixCol (b : Word) : Word := mulColumns Config.mix b

/-- `InvMixCol(b)` (R80). -/
def invMixCol (b : Word) : Word := mulColumns Config.imix b

/-- `KeyMix(b, k) = b ^ k` (R81). -/
def keyMix (b k : Word) : Word := b ^^^ k

end Sys2Proof.Machine
end

