-- ==== Sys2Proof/Machine/Cipher.lean ====
section
/-! DEFINITION. The single-key cipher as pure functions (43_cipher_engine.md R100, R101). -/

namespace Sys2Proof.Machine

/-- The eight stages of `Encrypt` after the key schedule, in the order of R100. -/
def encryptStages (c : Config.Boxes) (rk : RoundKeys) (p : Word) : Word :=
  let s1 := keyMix p rk.k0
  let s2 := subNib c s1
  let s3 := shiftRow s2
  let s4 := mixCol s3
  let s5 := keyMix s4 rk.k1
  let s6 := subNib c s5
  let s7 := shiftRow s6
  keyMix s7 rk.k2

/-- `Encrypt(p, k)` (R100). -/
def encrypt (c : Config.Boxes) (p k : Word) : Word := encryptStages c (keyExpansion c k) p

/-- The eight stages of `Decrypt`, in the order of R101: the same round keys, used K2, K1, K0. -/
def decryptStages (c : Config.Boxes) (rk : RoundKeys) (x : Word) : Word :=
  let t1 := keyMix x rk.k2
  let t2 := shiftRow t1
  let t3 := invSubNib c t2
  let t4 := keyMix t3 rk.k1
  let t5 := invMixCol t4
  let t6 := shiftRow t5
  let t7 := invSubNib c t6
  keyMix t7 rk.k0

/-- `Decrypt(c, k)` (R101): the key schedule is not inverted. -/
def decrypt (c : Config.Boxes) (x k : Word) : Word := decryptStages c (keyExpansion c k) x

end Sys2Proof.Machine
end

