-- ==== Sys2Proof/Machine/Flags.lean ====
section
/-! DEFINITION. The fields of `STATUS`: its bits, the fault codes, and the writes to it that R15 lists (10_state.md R15,
R18; 60_exceptions.md R140, R142). -/

namespace Sys2Proof.Machine

/-- The three faults of R140. -/
inductive FaultCode where
  | eopcode
  | efield
  | euninit
  deriving DecidableEq, Repr

/-- The value each fault records in `ECODE` (R15, R140). -/
def FaultCode.ecode : FaultCode → BitVec 3
  | .eopcode => 1
  | .efield => 2
  | .euninit => 3

/-- The fault a word that spells no command raises (R43). -/
def FaultCode.ofRejection : Rejection → FaultCode
  | .eopcode => .eopcode
  | .efield => .efield

/-- `STATUS` as the 8 bits of port `status_o` (R15, R22): `ECODE` in bits 7:5, then `ERR`, `GV`, `RKV`, `SV`, `KV`. -/
def Status.toByte (f : Status) : Byte :=
  f.ecode ++ BitVec.ofBool f.err ++ BitVec.ofBool f.gv ++ BitVec.ofBool f.rkv ++ BitVec.ofBool f.sv ++
    BitVec.ofBool f.kv

/-- `LDK`: `KV` set, `RKV` cleared (R15, R116). -/
def Status.keyLoaded (f : Status) : Status := { f with kv := true, rkv := false }

/-- `LDS`: `SV` set (R15, R117). -/
def Status.blockLoaded (f : Status) : Status := { f with sv := true }

/-- `KEXP`, `ENC`, `DEC`: `RKV` set (R15, R94, R102, R103). -/
def Status.keysExpanded (f : Status) : Status := { f with rkv := true }

/-- `GFMUL`: `GV` set (R15, R64). -/
def Status.productWritten (f : Status) : Status := { f with gv := true }

/-- A fault: `ERR <- 1`, `ECODE <- code`, every other field as it was (R142). -/
def Status.faulted (f : Status) (c : FaultCode) : Status := { f with err := true, ecode := c.ecode }

end Sys2Proof.Machine
end

