-- ==== Sys2Proof/Machine/Ops.lean ====
section
/-! DEFINITION. The named operations over the registers: taking a fault (60_exceptions.md R142), leaving it by reset
(R144, R161), the guard of the valid flags (10_state.md R16), and the output ports (R22). -/

namespace Sys2Proof.Machine

/-- The outcome of one step of this machine. -/
abbrev Outcome := Host.Outcome State Fault Refusal

/-- Taking a fault (R142): `STATUS.ERR <- 1` and `STATUS.ECODE <- code`, nothing else. There is no program counter,
no saved register, no handler and no mode to change. -/
def State.takeFault (c : FaultCode) (s : State) : State := { s with status := s.status.faulted c }

/-- The reset of R161, the one way out of a fault (R144): every register as in `State.reset`; the moves the host has
still to make are the host's and stay (log entry 1). -/
def State.takeReset (s : State) : State := { State.reset with inputs := s.inputs }

/-- `require_valid` (R8, R16) of every flag a command names, as one condition `valid`: where it fails the command
raises `EUNINIT` and does nothing else (R142); one code whichever flag is 0 (R87, R141). -/
def requireValid (valid : Bool) (effect : State → State) (s : State) : Outcome :=
  if valid then .next (effect s) else .next (s.takeFault .euninit)

/-- `ST <- f(ST)`, every other register and flag as it was. -/
def State.mapSt (f : Word → Word) (s : State) : State := { s with st := f s.st }

/-- `RK[0..2] <- rk` and `RKV <- 1` (R13, R94). -/
def State.writeRoundKeys (rk : RoundKeys) (s : State) : State := { s with rk := rk, status := s.status.keysExpanded }

/-- What the host may learn on the output ports while `cmd_ready = 1` (R22). -/
structure Ports where
  keyO : Option Word
  stO : Option Word
  rk0O : Option Word
  rk1O : Option Word
  rk2O : Option Word
  gpO : Option Nibble
  statusO : Byte
  cmdReady : Bool
  deriving DecidableEq, Repr

/-- The output ports between two commands (R22, R118): a data port shows its register while its valid flag is 1 and
has no value while it is 0 (U2, U4; log entry 8); `status_o` always has a value; `cmd_ready` is 1 (R148, log entry 4).
A read is no step and changes nothing (R118, R168). -/
def State.ports (s : State) : Ports :=
  { keyO := if s.status.kv then some s.key else none
    stO := if s.status.sv then some s.st else none
    rk0O := if s.status.rkv then some s.rk.k0 else none
    rk1O := if s.status.rkv then some s.rk.k1 else none
    rk2O := if s.status.rkv then some s.rk.k2 else none
    gpO := if s.status.gv then some s.gp else none
    statusO := s.status.toByte
    cmdReady := true }

/-- One outcome and then a further step from it, stopping at a fault or a refusal (R36: in order). -/
def andThen (o : Outcome) (f : State → Outcome) : Outcome :=
  match o with
  | .next s => f s
  | .fault r => .fault r
  | .refused r => .refused r

end Sys2Proof.Machine
end

