-- ==== Sys2Proof/Machine/Engine.lean ====
section
/-! DEFINITION. `ENC` and `DEC` (43_cipher_engine.md R102, R103). -/

namespace Sys2Proof.Machine

/-- `ENC` (R102): `require_valid(KV)`, `require_valid(SV)`; `RK <- KeyExpansion(KEY)`, `ST <- Encrypt(ST, KEY)`,
`RKV <- 1`, both right-hand sides read the old state (R8). -/
def execEnc (s : State) : Outcome :=
  requireValid (s.status.kv && s.status.sv)
    (fun t => (t.mapSt fun b => encrypt Config.boxes b t.key).writeRoundKeys (keyExpansion Config.boxes t.key)) s

/-- `DEC` (R103): as `ENC`, with `ST <- Decrypt(ST, KEY)`; `RK` is left in the forward order. -/
def execDec (s : State) : Outcome :=
  requireValid (s.status.kv && s.status.sv)
    (fun t => (t.mapSt fun b => decrypt Config.boxes b t.key).writeRoundKeys (keyExpansion Config.boxes t.key)) s

end Sys2Proof.Machine
end

