-- ==== Sys2Proof/Machine/LoadControl.lean ====
section
/-! DEFINITION. `NOP`, `LDK`, `LDS` (44_load_and_control.md R115 to R117). -/

namespace Sys2Proof.Machine

/-- `NOP` (R115): the state after is the state before. -/
def execNop (s : State) : Outcome := .next s

/-- `LDK imm16` (R116): `KEY <- imm16`, `KV <- 1`, `RKV <- 0`; `RK` keeps its bits (log entry 12). -/
def execLdk (imm16 : Word) (s : State) : Outcome :=
  .next { s with key := imm16, status := s.status.keyLoaded }

/-- `LDS imm16` (R117): `ST <- imm16`, `SV <- 1`. -/
def execLds (imm16 : Word) (s : State) : Outcome :=
  .next { s with st := imm16, status := s.status.blockLoaded }

end Sys2Proof.Machine
end

