-- ==== Sys2Proof/Machine/Multiplier.lean ====
section
/-! DEFINITION. `GFMUL` (40_gf16.md R64). -/

namespace Sys2Proof.Machine

/-- `GFMUL a, b` (R64): `GP <- GfMul(a, b)`, `GV <- 1`. -/
def execGfmul (a b : Nibble) (s : State) : Outcome :=
  .next { s with gp := gfMul a b, status := s.status.productWritten }

end Sys2Proof.Machine
end

