-- ==== Sys2Proof/Machine/Round.lean ====
section
/-! DEFINITION. The round commands `ARK`, `SUBNIB`, `ISUBNIB`, `SHROW`, `MIXCOL`, `IMIXCOL`
(41_sbox_round_primitives.md R82 to R87). -/

namespace Sys2Proof.Machine

/-- `ARK n` (R87): `require_valid(SV)`, `require_valid(RKV)`, `ST <- ST ^ RK[n]`. The reserved `n = 3` raises `EFIELD`,
which comes before the flags (R46, R141, R149); no word decodes to it. -/
def execArk (n : BitVec 2) (s : State) : Outcome :=
  match s.rk.get? n with
  | some k => requireValid (s.status.sv && s.status.rkv) (State.mapSt fun b => keyMix b k) s
  | none => .next (s.takeFault .efield)

/-- `SUBNIB` (R82). -/
def execSubnib (s : State) : Outcome := requireValid s.status.sv (State.mapSt (subNib Config.boxes)) s

/-- `ISUBNIB` (R83). -/
def execIsubnib (s : State) : Outcome := requireValid s.status.sv (State.mapSt (invSubNib Config.boxes)) s

/-- `SHROW` (R84). -/
def execShrow (s : State) : Outcome := requireValid s.status.sv (State.mapSt shiftRow) s

/-- `MIXCOL` (R85): the multiplier is used internally, `GP` and `GV` are unchanged. -/
def execMixcol (s : State) : Outcome := requireValid s.status.sv (State.mapSt mixCol) s

/-- `IMIXCOL` (R86). -/
def execImixcol (s : State) : Outcome := requireValid s.status.sv (State.mapSt invMixCol) s

end Sys2Proof.Machine
end

