-- ==== Sys2Proof/Machine/Schedule.lean ====
section
/-! DEFINITION. `KEXP` (42_key_schedule.md R94). -/

namespace Sys2Proof.Machine

/-- `KEXP` (R94): `require_valid(KV)`; `RK <- KeyExpansion(KEY)`, `RKV <- 1`. -/
def execKexp (s : State) : Outcome :=
  requireValid s.status.kv (fun t => t.writeRoundKeys (keyExpansion Config.boxes t.key)) s

end Sys2Proof.Machine
end

