-- ==== Sys2Proof/Machine/Dispatch.lean ====
section
/-! DEFINITION. One arm per constructor of Instr, each one call of its meaning. -/

namespace Sys2Proof.Machine

/-- The effect of a decoded command. `ERR = 1` is looked at before decoding (R143, R165), so not here: log entry 6. -/
def exec (i : Instr) (s : State) : Host.Outcome State Fault Refusal :=
  match i with
  | .nop => Sys2Proof.Machine.execNop s
  | .ldk imm16 => Sys2Proof.Machine.execLdk imm16 s
  | .lds imm16 => Sys2Proof.Machine.execLds imm16 s
  | .kexp => Sys2Proof.Machine.execKexp s
  | .ark n => Sys2Proof.Machine.execArk n s
  | .subnib => Sys2Proof.Machine.execSubnib s
  | .isubnib => Sys2Proof.Machine.execIsubnib s
  | .shrow => Sys2Proof.Machine.execShrow s
  | .mixcol => Sys2Proof.Machine.execMixcol s
  | .imixcol => Sys2Proof.Machine.execImixcol s
  | .enc => Sys2Proof.Machine.execEnc s
  | .dec => Sys2Proof.Machine.execDec s
  | .gfmul a b => Sys2Proof.Machine.execGfmul a b s

end Sys2Proof.Machine
end

