-- ==== Sys2Proof/Machine/Accept.lean ====
section
/-! DEFINITION. What the core does at one clock edge (70_reset_and_hazards.md R160, R165, R168). -/

namespace Sys2Proof.Machine

/-- `Step(state, w)` of R165: while `ERR = 1` the word is discarded (R143); else it is decoded (R43) and the core takes
the fault (R142) or executes the command. -/
def stepWord (w : CmdWord) (s : State) : Outcome :=
  if s.status.err then .next s
  else
    match decode w with
    | .command i => exec i s
    | .rejected r => .next (s.takeFault (FaultCode.ofRejection r))

/-- One edge of the host's pins: reset beats a command presented on the same edge (R160); a command is accepted where
`cmd_valid = 1` (R22); else the host idles and the state stays (R168). -/
def clockEdge (e : Edge) (s : State) : Outcome :=
  if e.rst then .next s.takeReset
  else if e.cmdValid then stepWord e.cmd s
  else .next s

/-- The next move of the host is taken from `inputs`; a host that presents nothing leaves the state unchanged (R164). -/
def nextEdge (s : State) : Outcome :=
  match s.inputs with
  | [] => .next s
  | e :: rest => clockEdge e { s with inputs := rest }

/-- The edge at which the host presents the command word `w` (R22, R168). -/
def presentWord (w : CmdWord) : Edge := { rst := false, cmdValid := true, cmd := w }

/-- The edge at which the host asserts reset, whatever else is on its pins (R160). -/
def presentReset (cmdValid : Bool) (w : CmdWord) : Edge := { rst := true, cmdValid := cmdValid, cmd := w }

/-- A word placed as the next one the host presents: log entries 1 and 10. -/
def placeWord (s : State) (nbits w : Nat) : State :=
  { s with inputs := presentWord (BitVec.ofNat 20 (w % 2 ^ nbits)) :: s.inputs }

end Sys2Proof.Machine
end

