-- ==== Sys2Proof/Machine/Step.lean ====
section
/-! DEFINITION. One step of the machine: the next edge of the host's pins. -/

namespace Sys2Proof.Machine

/-- One step (R165, R168). -/
def step (s : State) : Host.Outcome State Fault Refusal := nextEdge s

/-- `s` with the host presenting the word `w` at the very next edge; nothing else changes (log entry 1). -/
def State.withFetchWord (s : State) (nbits w : Nat) : State := placeWord s nbits w

end Sys2Proof.Machine
end

