-- ==== Sys2Proof/Machine/Assembler.lean ====
section
/-! DEFINITION. The assembler syntax and the pseudo-instructions (30_encoding.md R49, R50). Text is a list of characters,
one list per line. What R49 leaves open (white space, the case of hexadecimal digits) is log entry 11. -/

namespace Sys2Proof.Machine

/-- Why the assembler refuses a line (R49). -/
inductive AsmError where
  | unknownMnemonic
  | malformedNumber
  | operandOutOfRange
  | wrongOperandCount
  deriving DecidableEq, Repr

/-- What one line of assembly names: a command, or an alias that has no encoding of its own (R50). -/
inductive AsmLine where
  | command (i : Instr)
  | ishrow
  | iark (n : BitVec 2)
  | ldks (k p : Word)
  deriving DecidableEq, Repr

/-- The expansion of each pseudo-instruction (R50). -/
def AsmLine.expand : AsmLine → List Instr
  | .command i => [i]
  | .ishrow => [.shrow]
  | .iark n => [.ark n]
  | .ldks k p => [.ldk k, .lds p]

/-- White space within a line. DESIGN CHOICE, log entry 11; safe. -/
def isBlank (ch : Char) : Bool := ch == ' ' || ch == '\t' || ch == '\r'

/-- A text without the white space around it. -/
def trimBlank (t : List Char) : List Char := ((t.dropWhile isBlank).reverse.dropWhile isBlank).reverse

/-- `;` starts a comment that runs to the end of the line (R49). -/
def stripComment (t : List Char) : List Char := t.takeWhile (· != ';')

/-- The parts of a text between its commas (R49). -/
def splitCommas (t : List Char) : List (List Char) :=
  t.foldr (fun ch parts => if ch == ',' then [] :: parts else (ch :: parts.headD []) :: parts.tail) [[]]

/-- The value of one digit, `0` to `9`, `A` to `F` or `a` to `f`. -/
def digitValue (ch : Char) : Option Nat :=
  let c := ch.toNat
  if 48 ≤ c ∧ c ≤ 57 then some (c - 48)
  else if 65 ≤ c ∧ c ≤ 70 then some (c - 55)
  else if 97 ≤ c ∧ c ≤ 102 then some (c - 87)
  else none

/-- A digit string in a base, most significant digit first; none where a character is no digit of the base. -/
def digitsValue (base : Nat) (t : List Char) : Option Nat :=
  t.foldl (fun acc ch =>
    match acc, digitValue ch with
    | some v, some d => if d < base then some (v * base + d) else none
    | _, _ => none) (some 0)

/-- A number, decimal or `0x` hexadecimal (R49), with at least one digit. -/
def numberValue (t : List Char) : Option Nat :=
  match t with
  | [] => none
  | '0' :: 'x' :: [] => none
  | '0' :: 'x' :: digits => digitsValue 16 digits
  | digits => digitsValue 10 digits

/-- An operand and its range, `0` to `max` (R49). -/
def operandValue (max : Nat) (t : List Char) : Except AsmError Nat :=
  match numberValue (trimBlank t) with
  | none => .error .malformedNumber
  | some v => if v ≤ max then .ok v else .error .operandOutOfRange

/-- A line that takes no operand. -/
def noOperand (ops : List (List Char)) (l : AsmLine) : Except AsmError AsmLine :=
  match ops with
  | [] => .ok l
  | _ => .error .wrongOperandCount

/-- A line that takes one operand. -/
def oneOperand (ops : List (List Char)) (max : Nat) (l : Nat → AsmLine) : Except AsmError AsmLine :=
  match ops with
  | [x] =>
    match operandValue max x with
    | .ok v => .ok (l v)
    | .error e => .error e
  | _ => .error .wrongOperandCount

/-- A line that takes two operands. -/
def twoOperands (ops : List (List Char)) (max : Nat) (l : Nat → Nat → AsmLine) : Except AsmError AsmLine :=
  match ops with
  | [x, y] =>
    match operandValue max x, operandValue max y with
    | .ok v, .ok v' => .ok (l v v')
    | .error e, _ => .error e
    | _, .error e => .error e
  | _ => .error .wrongOperandCount

/-- The line of a mnemonic in capitals and its operands, each in its range (R49): `imm16` 0..0xFFFF, `n` 0..2 (3 is
refused), `a` and `b` 0..15. -/
def parseOperands (mnemonic : List Char) (ops : List (List Char)) : Except AsmError AsmLine :=
  if mnemonic == "NOP".toList then noOperand ops (.command .nop)
  else if mnemonic == "LDK".toList then oneOperand ops 0xFFFF fun v => .command (.ldk (BitVec.ofNat 16 v))
  else if mnemonic == "LDS".toList then oneOperand ops 0xFFFF fun v => .command (.lds (BitVec.ofNat 16 v))
  else if mnemonic == "KEXP".toList then noOperand ops (.command .kexp)
  else if mnemonic == "ARK".toList then oneOperand ops 2 fun v => .command (.ark (BitVec.ofNat 2 v))
  else if mnemonic == "SUBNIB".toList then noOperand ops (.command .subnib)
  else if mnemonic == "ISUBNIB".toList then noOperand ops (.command .isubnib)
  else if mnemonic == "SHROW".toList then noOperand ops (.command .shrow)
  else if mnemonic == "MIXCOL".toList then noOperand ops (.command .mixcol)
  else if mnemonic == "IMIXCOL".toList then noOperand ops (.command .imixcol)
  else if mnemonic == "ENC".toList then noOperand ops (.command .enc)
  else if mnemonic == "DEC".toList then noOperand ops (.command .dec)
  else if mnemonic == "GFMUL".toList then
    twoOperands ops 15 fun v v' => .command (.gfmul (BitVec.ofNat 4 v) (BitVec.ofNat 4 v'))
  else if mnemonic == "ISHROW".toList then noOperand ops .ishrow
  else if mnemonic == "IARK".toList then oneOperand ops 2 fun v => .iark (BitVec.ofNat 2 v)
  else if mnemonic == "LDKS".toList then
    twoOperands ops 0xFFFF fun v v' => .ldks (BitVec.ofNat 16 v) (BitVec.ofNat 16 v')
  else .error .unknownMnemonic

/-- The operands of a line, separated by commas; none where nothing stands after the mnemonic (R49). -/
def operandTexts (t : List Char) : List (List Char) :=
  match trimBlank t with
  | [] => []
  | u => splitCommas u

/-- One line of assembly: the commands it stands for; a blank line stands for none (R49). -/
def assembleLine (line : List Char) : Except AsmError (List Instr) :=
  match trimBlank (stripComment line) with
  | [] => .ok []
  | t =>
    match parseOperands (t.takeWhile fun ch => !isBlank ch) (operandTexts (t.dropWhile fun ch => !isBlank ch)) with
    | .ok l => .ok l.expand
    | .error e => .error e

/-- The command words of a text, one command per line; the encoder fills reserved fields with zero (R49). -/
def assemble : List (List Char) → Except AsmError (List CmdWord)
  | [] => .ok []
  | line :: rest =>
    match assembleLine line, assemble rest with
    | .ok is, .ok ws => .ok (is.map encode ++ ws)
    | .error e, _ => .error e
    | _, .error e => .error e

/-- A hexadecimal digit, a capital above 9. -/
def hexChar (n : Nibble) : Char := Char.ofNat (if n.toNat < 10 then 48 + n.toNat else 55 + n.toNat)

/-- A 16-bit operand as `0x` and four digits. -/
def showWord (b : Word) : List Char :=
  '0' :: 'x' :: [b.extractLsb' 12 4, b.extractLsb' 8 4, b.extractLsb' 4 4, b.extractLsb' 0 4].map hexChar

/-- A number below 16 in decimal. -/
def showSmall (n : Nat) : List Char :=
  if n < 10 then [Char.ofNat (48 + n)] else ['1', Char.ofNat (38 + n)]

/-- The text of a command: the real mnemonic, never an alias (R50), and its operands. -/
def showInstr : Instr → List Char
  | .nop => "NOP".toList
  | .ldk imm16 => "LDK ".toList ++ showWord imm16
  | .lds imm16 => "LDS ".toList ++ showWord imm16
  | .kexp => "KEXP".toList
  | .ark n => "ARK ".toList ++ showSmall n.toNat
  | .subnib => "SUBNIB".toList
  | .isubnib => "ISUBNIB".toList
  | .shrow => "SHROW".toList
  | .mixcol => "MIXCOL".toList
  | .imixcol => "IMIXCOL".toList
  | .enc => "ENC".toList
  | .dec => "DEC".toList
  | .gfmul a b => "GFMUL ".toList ++ showSmall a.toNat ++ ", ".toList ++ showSmall b.toNat

/-- The text a disassembler prints for a word; none where the word spells no command. -/
def disassemble (w : CmdWord) : Option (List Char) := (decode w).command?.map showInstr

/-- A line of a listing: `word  ; mnemonic operands` (R49), the word in five digits. -/
def listingLine (i : Instr) : List Char :=
  hexChar (opField (encode i)) :: (showWord (immField (encode i))).drop 2 ++ "  ; ".toList ++ showInstr i

end Sys2Proof.Machine
end

