-- ==== Sys2Proof/Safety.lean ====
section
/-! DEFINITION. The terms the claims use: the state invariant of 10_state.md R23, a run that has gone wrong
(60_exceptions.md R143, 70_reset_and_hazards.md R164), what a host can see (R22), runs of command words (R36, R164),
and the fault conditions of R149 read from the word alone. -/

namespace Sys2Proof.Safety

open Sys2Proof.Machine

/-- The run that ends in `s` has gone wrong (R143, R164). -/
def GoneWrong (s : State) : Prop := s.status.err = true

/-- The state invariant of R23, for the machine's tables. -/
structure Inv (s : State) : Prop where
  keyed : s.status.rkv = true → s.status.kv = true
  expanded : s.status.rkv = true → s.rk = keyExpansion Config.boxes s.key
  coded : s.status.err = false ↔ s.status.ecode = 0
  small : s.status.ecode.toNat ≤ 3

/-- Two states a host and a command cannot tell apart: the same on every port (R22), with the same moves to come. -/
def SameVisible (s t : State) : Prop := s.ports = t.ports ∧ s.inputs = t.inputs

/-- The run of a list of command words: the fold of the step of R165 over the list, in order (R36, R164). -/
def runWords (ws : List CmdWord) (s : State) : Outcome :=
  ws.foldl (fun o w => andThen o (stepWord w)) (.next s)

/-- Decoded commands executed one after another (R36). -/
def execAll (is : List Instr) (s : State) : Outcome :=
  is.foldl (fun o i => andThen o (exec i)) (.next s)

/-- The valid flags R149 asks of a command, by its opcode: it faults with `EUNINIT` where they are not all 1. -/
def flagsPresent (op : Nibble) (f : Status) : Bool :=
  match op.toNat with
  | 0x3 => f.kv
  | 0x4 => f.sv && f.rkv
  | 0x5 | 0x6 | 0x7 | 0x8 | 0x9 => f.sv
  | 0xA | 0xB => f.kv && f.sv
  | _ => true

/-- Whether R149 gives a word `EFIELD`: `imm` must be zero in the commands without operand, `imm[15:2] = 0` and
`imm[1:0] != 3` in `ARK`, `imm[15:8] = 0` in `GFMUL`; never in `LDK` and `LDS`. Written on the word as a number. -/
def fieldFault (w : CmdWord) : Bool :=
  match w.toNat / 65536 with
  | 0x1 | 0x2 => false
  | 0x4 => decide (3 ≤ w.toNat % 65536)
  | 0xC => decide (256 ≤ w.toNat % 65536)
  | _ => decide (w.toNat % 65536 ≠ 0)

/-- The one fault the word `w` raises in a state with `ERR = 0`, in the priority of R141; none where it executes. -/
def faultOf (w : CmdWord) (f : Status) : Option FaultCode :=
  if 13 ≤ w.toNat / 65536 then some .eopcode
  else if fieldFault w then some .efield
  else if flagsPresent (BitVec.ofNat 4 (w.toNat / 65536)) f then none
  else some .euninit

/-- Every word with the opcode `op` and a `bad` operand field raises `EFIELD` in every state with `ERR = 0`, whatever
the valid flags, and has no other effect (R43, R46, R141, R142). -/
def RaisesEfield (op : Nibble) (bad : Word → Prop) : Prop :=
  ∀ (imm : Word) (s : State), bad imm → s.status.err = false →
    stepWord (op ++ imm) s = .next (s.takeFault .efield)

/-- The nine commands of R104, as words. -/
def encryptWords : List CmdWord :=
  [.kexp, .ark 0, .subnib, .shrow, .mixcol, .ark 1, .subnib, .shrow, .ark 2].map encode

/-- The nine commands of R107, as words. -/
def decryptWords : List CmdWord :=
  [.kexp, .ark 2, .shrow, .isubnib, .ark 1, .imixcol, .shrow, .isubnib, .ark 0].map encode

end Sys2Proof.Safety
end

