-- ==== Sys2Proof/Certificates/Slice0/Obligations.lean ====
section
/-! DEFINITION. The statements for the provers. Each docstring names the rule of spec/ it formalises. A statement that
holds for the machine's tables names `Config.boxes`; one that holds for any tables takes a `Config.Boxes`; a numeric
value through a table is stated for `Config.defaultBoxes` by name (93_implementation_defined.md U1). -/

open Sys2Proof Sys2Proof.Machine Sys2Proof.Safety

/-! ### Encoding -/

/-- R40 to R46: every well-formed command is read back from its word, with every operand. -/
def Obligations.DecodeInvertsEncode : Prop :=
  ∀ i : Instr, i.wellFormed = true → decode (encode i) = .command i

/-- R43, R46: a word that decodes is the word of the well-formed command it decodes to: no bit is ignored and no two
words spell one command. -/
def Obligations.EncodeInvertsDecode : Prop :=
  ∀ (w : CmdWord) (i : Instr), decode w = .command i → i.wellFormed = true ∧ encode i = w

/-- Words written out from the spec's encodings (R41, R44, R49; 95_test_vectors.md section 2.1). -/
def Obligations.SpecWordsDecode : Prop :=
  decode 0x00000 = .command .nop ∧ decode 0x1A73B = .command (.ldk 0xA73B) ∧
  decode 0x2FFFF = .command (.lds 0xFFFF) ∧ decode 0x30000 = .command .kexp ∧
  decode 0x40002 = .command (.ark 2) ∧ decode 0x60000 = .command .isubnib ∧
  decode 0xB0000 = .command .dec ∧ decode 0xC0049 = .command (.gfmul 4 9) ∧
  decode 0x30100 = .rejected .efield ∧ decode 0x40003 = .rejected .efield ∧
  decode 0xC0149 = .rejected .efield ∧ decode 0xD0001 = .rejected .eopcode

/-- R44: the words that spell a command are those that match a row of the opcode map, less 0x40003; the row matched is
the row of the command decoded; no word matches two rows. -/
def Obligations.DecodeFollowsOpcodeMap : Prop :=
  (∀ w : CmdWord, (∃ i, decode w = .command i) ↔
    w ≠ 0x40003 ∧ ∃ r ∈ opcodeMap, w &&& r.mask = r.pattern) ∧
  (∀ (w : CmdWord) (i : Instr), decode w = .command i →
    i.row ∈ opcodeMap ∧ w &&& i.row.mask = i.row.pattern) ∧
  (∀ w : CmdWord, ∀ r ∈ opcodeMap, ∀ r' ∈ opcodeMap,
    w &&& r.mask = r.pattern → w &&& r'.mask = r'.pattern → r = r')

/-- R43: 131340 of the 2^20 words spell a command and the other 917236 are rejected. -/
def Obligations.CommandWordCount : Prop :=
  (List.range (2 ^ 20)).countP (fun n => (decode (BitVec.ofNat 20 n)).command?.isSome) = 131340 ∧
  (List.range (2 ^ 20)).countP (fun n => (decode (BitVec.ofNat 20 n)).command?.isNone) = 917236

/-! ### Faults -/

/-- R141, R149: with `ERR = 0` the word raises exactly the fault the conditions of R149 give it, the first in the order
EOPCODE, EFIELD, EUNINIT; where they give none it executes and no fault is raised. -/
def Obligations.FaultsFollowPriority : Prop :=
  (∀ (s : State) (w : CmdWord), s.status.err = false →
    (∀ c, faultOf w s.status = some c → stepWord w s = .next (s.takeFault c)) ∧
    (faultOf w s.status = none →
      ∃ i t, decode w = .command i ∧ exec i s = .next t ∧ stepWord w s = .next t ∧ t.status.err = false)) ∧
  (∀ f : Status, faultOf 0xD0001 f = some .eopcode) ∧
  (∀ f : Status, f.sv = false → faultOf 0x40003 f = some .efield) ∧
  (∀ f : Status, f.kv = false → f.sv = false → faultOf 0xA0000 f = some .euninit)

/-- R142: a fault writes `ERR` and `ECODE` and nothing else, and the core stays ready for command words. -/
def Obligations.FaultWritesErrAndEcodeOnly : Prop :=
  ∀ (s : State) (w : CmdWord) (c : FaultCode), s.status.err = false → faultOf w s.status = some c →
    ∃ t, step { s with inputs := presentWord w :: s.inputs } = .next t ∧
      t = { s with status := { s.status with
              err := true
              ecode := match c with
                | .eopcode => 1
                | .efield => 2
                | .euninit => 3 } } ∧
      t.ports.cmdReady = true

/-- R143: while `ERR = 1` every word the core accepts is discarded, so the first fault's code and the data registers
stay, however many words follow; such a run has gone wrong. -/
def Obligations.FaultedCoreDiscardsEveryWord : Prop :=
  ∀ (s : State) (ws : List CmdWord), s.status.err = true → runWords ws s = .next s ∧ GoneWrong s

/-- R144: the only event that clears `ERR` is reset, which also invalidates every data register. -/
def Obligations.OnlyResetClearsTheFault : Prop :=
  (∀ s t : State, s.status.err = true → step s = .next t → t.status.err = false →
    ∃ e rest, s.inputs = e :: rest ∧ e.rst = true) ∧
  (∀ (s : State) (v : Bool) (w : CmdWord) (rest : List Edge), s.inputs = presentReset v w :: rest →
    ∃ t, step s = .next t ∧ t.status.err = false ∧
      t.status.kv = false ∧ t.status.sv = false ∧ t.status.rkv = false ∧ t.status.gv = false)

/-! ### Reset, status, ports -/

/-- Reset clears `STATUS`, leaves no data register with a value, and leaves the same state, as far as a command or a host
can tell, whatever came before. Two clauses are the model's choice: `cmd_ready` is 1 although `rst` may still be 1 at the
next edge (log entry 4), and the host's later moves stay in `inputs` (log entry 1). R161 by itself, without them, is
`ResetForgetsThePast`. -/
def Obligations.ResetLeavesOneState : Prop :=
  ∀ (s : State) (e : Edge) (rest : List Edge), s.inputs = e :: rest → e.rst = true →
    ∃ t, step s = .next t ∧ t.status = Status.reset ∧ t.status.toByte = 0x00 ∧ t.inputs = rest ∧
      t.ports = { keyO := none, stO := none, rk0O := none, rk1O := none, rk2O := none, gpO := none,
                  statusO := 0x00, cmdReady := true } ∧
      SameVisible t { State.reset with inputs := rest }

/-- R161: two cores reset from any two states have `STATUS` 0x00, so that every command that reads a data register
raises `EUNINIT` (it holds no value); `cmd_ready` is 1 at a following edge with `rst` 0; and no command words they are given afterwards can tell the two apart. -/
def Obligations.ResetForgetsThePast : Prop :=
  ∀ (s s' : State) (e e' : Edge) (rest rest' : List Edge),
    s.inputs = e :: rest → e.rst = true → s'.inputs = e' :: rest' → e'.rst = true →
    ∃ t t', step s = .next t ∧ step s' = .next t' ∧ t.status = Status.reset ∧
      t.status.toByte = 0x00 ∧
      (∀ i ∈ [Instr.kexp, .ark 0, .ark 1, .ark 2, .subnib, .isubnib, .shrow, .mixcol, .imixcol, .enc, .dec],
        exec i t = .next (t.takeFault .euninit)) ∧
      (∀ f later, rest = f :: later → f.rst = false → t.ports.cmdReady = true) ∧
      ∀ ws : List CmdWord, ∃ u u', runWords ws t = .next u ∧ runWords ws t' = .next u' ∧ u.ports = u'.ports

/-- R160: reset has priority over a command presented on the same edge, which is not accepted: neither `cmd_valid` nor
`cmd` changes what the step gives; and reset is the `rst` pin alone: a step at an edge with `rst = 0`, or at none, clears
neither `ERR` nor a valid flag of `KEY`, `ST` or `GP`. -/
def Obligations.ResetBeatsCommand : Prop :=
  (∀ (s : State) (v : Bool) (w : CmdWord) (rest : List Edge),
    step { s with inputs := presentReset v w :: rest } = step { s with inputs := presentReset false 0 :: rest } ∧
    step { s with inputs := presentReset v w :: rest } = .next { State.reset with inputs := rest }) ∧
  (∀ s t : State, step s = .next t → (∀ e rest, s.inputs = e :: rest → e.rst = false) →
    (s.status.kv = true → t.status.kv = true) ∧ (s.status.sv = true → t.status.sv = true) ∧
    (s.status.gv = true → t.status.gv = true) ∧ (s.status.err = true → t.status.err = true))

/-- R21: `STATUS` and `cmd_ready` after reset, and that every data register is guarded by a valid flag that is 0, so
its port has no value and every command that reads it raises `EUNINIT`. That no move of the host is pending is the
model's choice (log entry 1). -/
def Obligations.ResetValues : Prop :=
  State.reset.status = { kv := false, sv := false, rkv := false, gv := false, err := false, ecode := 0 } ∧
  State.reset.status.toByte = 0x00 ∧ State.reset.inputs = [] ∧
  State.reset.ports = { keyO := none, stO := none, rk0O := none, rk1O := none, rk2O := none, gpO := none,
                        statusO := 0x00, cmdReady := true } ∧
  (∀ i : Instr, i ∈ [.kexp, .ark 0, .ark 1, .ark 2, .subnib, .isubnib, .shrow, .mixcol, .imixcol, .enc, .dec] →
    exec i State.reset = .next (State.reset.takeFault .euninit))

/-- R15: the place of each field in the 8 bits of `STATUS`. -/
def Obligations.StatusFieldPlaces : Prop :=
  ∀ f : Status, f.toByte.getLsbD 0 = f.kv ∧ f.toByte.getLsbD 1 = f.sv ∧ f.toByte.getLsbD 2 = f.rkv ∧
    f.toByte.getLsbD 3 = f.gv ∧ f.toByte.getLsbD 4 = f.err ∧ f.toByte.extractLsb' 5 3 = f.ecode

/-- R15, R18: what sets and what clears each flag when a command is executed; reset, which clears them all, is
`ResetLeavesOneState`. -/
def Obligations.FlagsChangeOnlyAsListed : Prop :=
  ∀ (i : Instr) (s t : State), exec i s = .next t →
    (s.status.kv = true → t.status.kv = true) ∧ (s.status.sv = true → t.status.sv = true) ∧
    (s.status.gv = true → t.status.gv = true) ∧ (s.status.err = true → t.status.err = true) ∧
    (s.status.rkv = true → t.status.rkv = false → ∃ k, i = .ldk k) ∧
    (s.status.kv = false → t.status.kv = true → ∃ k, i = .ldk k) ∧
    (s.status.sv = false → t.status.sv = true → ∃ b, i = .lds b) ∧
    (s.status.rkv = false → t.status.rkv = true → i = .kexp ∨ i = .enc ∨ i = .dec) ∧
    (s.status.gv = false → t.status.gv = true → ∃ a b, i = .gfmul a b) ∧
    (t.status.err ≠ s.status.err → ∃ c, t = s.takeFault c) ∧
    (t.status.ecode ≠ s.status.ecode → ∃ c, t = s.takeFault c)

/-- R22: a data port shows its register exactly while its valid flag is 1; `status_o` always has a value. That it shows
no value while the flag is 0 is the reading of U2 in log entry 8. -/
def Obligations.PortsShowValidRegisters : Prop :=
  ∀ s : State,
    (s.status.kv = true → s.ports.keyO = some s.key) ∧ (s.status.kv = false → s.ports.keyO = none) ∧
    (s.status.sv = true → s.ports.stO = some s.st) ∧ (s.status.sv = false → s.ports.stO = none) ∧
    (s.status.rkv = true →
      s.ports.rk0O = some s.rk.k0 ∧ s.ports.rk1O = some s.rk.k1 ∧ s.ports.rk2O = some s.rk.k2) ∧
    (s.status.rkv = false → s.ports.rk0O = none ∧ s.ports.rk1O = none ∧ s.ports.rk2O = none) ∧
    (s.status.gv = true → s.ports.gpO = some s.gp) ∧ (s.status.gv = false → s.ports.gpO = none) ∧
    s.ports.statusO = s.status.toByte

/-- R16, R21, U2, U3, U4: the bits of a register whose valid flag is 0 can never be told: two states with the same
values on the ports and the same moves to come take the same step, as far as the ports show, for ever. So the bits
this model puts under a register at reset (log entry 2) and leaves in `RK` after `LDK` (log entry 12) are without effect. -/
def Obligations.HiddenBitsAreNeverObservable : Prop :=
  ∀ (n : Nat) (s t s' t' : State), SameVisible s t →
    core.run n s = .next s' → core.run n t = .next t' → SameVisible s' t'

/-! ### The step and the run -/

/-- R23: the state invariant is kept by every step, from every state that meets it. -/
def Obligations.StepKeepsInvariant : Prop :=
  ∀ s t : State, Inv s → step s = .next t → Inv t

/-- R23 (b), (c), R21: the reset state meets the invariant. -/
def Obligations.ResetMeetsInvariant : Prop := Inv State.reset

/-- R23: the invariant holds in every reachable state, whatever the host does. -/
def Obligations.ReachableStatesMeetInvariant : Prop :=
  ∀ (n : Nat) (moves : List Edge) (t : State),
    core.run n { State.reset with inputs := moves } = .next t → Inv t

/-- A step runs the decoded command: the word the host presents at the next edge, with `ERR = 0`, is executed, and the
step adds only that this edge is taken from the host's moves (R165, R168; log entry 1); `withFetchWord` presents it. -/
def Obligations.StepRunsDecodedCommand : Prop :=
  (∀ (s : State) (w : CmdWord) (rest : List Edge) (i : Instr),
    s.inputs = presentWord w :: rest → s.status.err = false → decode w = .command i →
    step s = exec i { s with inputs := rest }) ∧
  (∀ (s : State) (i : Instr), i.wellFormed = true → s.status.err = false →
    step (s.withFetchWord 24 (encode i).toNat) = exec i s)

/-- R165: the whole step function, case by case, total. -/
def Obligations.StepFollowsItsDefinition : Prop :=
  (∀ (s : State) (w : CmdWord),
    (s.status.err = true → stepWord w s = .next s) ∧
    (s.status.err = false → ∀ i, decode w = .command i → stepWord w s = exec i s) ∧
    (s.status.err = false → decode w = .rejected .eopcode → stepWord w s = .next (s.takeFault .eopcode)) ∧
    (s.status.err = false → decode w = .rejected .efield → stepWord w s = .next (s.takeFault .efield)) ∧
    ∃ t, stepWord w s = .next t) ∧
  (∀ s : State, s.takeReset = { State.reset with inputs := s.inputs }) ∧
  (∀ s : State, ∃ t, step s = .next t)

/-- R36, R164: presenting a list of command words one after another runs the fold of the step over the list, and that
run never hangs. -/
def Obligations.RunIsFoldOfStep : Prop :=
  ∀ (ws : List CmdWord) (s : State),
    core.run ws.length { s with inputs := ws.map presentWord ++ s.inputs } = runWords ws s ∧
    ∃ t, runWords ws s = .next t

/-- R164, R168: an idle host changes no register, for any number of edges; where it presents nothing the core waits with
its state unchanged. -/
def Obligations.IdleHostLeavesRegisters : Prop :=
  (∀ (s : State) (n : Nat), s.inputs = [] → core.run n s = .next s) ∧
  (∀ (s : State) (ws : List CmdWord) (rest : List Edge),
    s.inputs = ws.map (fun w => { rst := false, cmdValid := false, cmd := w }) ++ rest →
    core.run ws.length s = .next { s with inputs := rest })

/-- R163: what must come before a command after reset for it to yield a result, and that breaking the order raises
`EUNINIT`: `LDK` before `KEXP`, `ENC`, `DEC`; `LDS` before the round commands, `ENC`, `DEC`; the round keys of the latest
`LDK` before `ARK`; nothing before `NOP` and `GFMUL`; the two loads in either order. -/
def Obligations.BootOrder : Prop :=
  ∀ (k p : Word) (s : State), s.status = Status.reset →
    execAll [.ldk k, .lds p] s = execAll [.lds p, .ldk k] s ∧
    (∀ a b : Nibble, ∃ t, execAll [.nop, .gfmul a b] s = .next t ∧ t.status.err = false) ∧
    (∀ i ∈ [Instr.kexp, .enc, .dec], ∃ t, execAll [.lds p, i] s = .next t ∧ t.status.ecode = 3) ∧
    (∃ t, execAll [.ldk k, .kexp] s = .next t ∧ t.status.err = false) ∧
    (∀ i ∈ [Instr.subnib, .isubnib, .shrow, .mixcol, .imixcol, .ark 0, .ark 1, .ark 2, .enc, .dec],
      ∃ t, execAll [.ldk k, .kexp, i] s = .next t ∧ t.status.ecode = 3) ∧
    (∀ i ∈ [Instr.subnib, .isubnib, .shrow, .mixcol, .imixcol],
      ∃ t, execAll [.lds p, i] s = .next t ∧ t.status.err = false) ∧
    (∀ i ∈ [Instr.enc, .dec], ∃ t, execAll [.ldk k, .lds p, i] s = .next t ∧ t.status.err = false) ∧
    (∀ n : BitVec 2, n ≠ 3 → ∀ j ∈ [Instr.kexp, .enc, .dec],
      (∃ t, execAll [.ldk k, .lds p, j, .ark n] s = .next t ∧ t.status.err = false) ∧
      ∀ k' : Word, ∃ t, execAll [.ldk k, .lds p, j, .ldk k', .ark n] s = .next t ∧ t.status.ecode = 3)

/-! ### The commands, one statement each -/

/-- R115. -/
def Obligations.NopDoesNothing : Prop :=
  encode .nop = 0x00000 ∧ RaisesEfield 0x0 (fun imm => imm ≠ 0) ∧
  (∀ s : State, exec .nop s = .next s) ∧
  (∀ (w : CmdWord) (i : Instr), decode w = .command i → (∀ s : State, exec i s = .next s) → w = 0x00000) ∧
  (∀ s : State, stepWord 0x00000 s = .next s)

/-- R116: `KEY` and its flags; `RK` keeps its bits but no command and no port can use them; no `imm16` faults. -/
def Obligations.LdkLoadsTheKey : Prop :=
  (∀ imm16 : Word, encode (.ldk imm16) = 0x10000 + imm16.setWidth 20 ∧
    decode ((0x1 : Nibble) ++ imm16) = .command (.ldk imm16)) ∧
  (∀ (imm16 : Word) (s : State), exec (.ldk imm16) s =
    .next { s with key := imm16, status := { s.status with kv := true, rkv := false } }) ∧
  (∀ (imm16 : Word) (s t : State), exec (.ldk imm16) s = .next t →
    t.ports.rk0O = none ∧ t.ports.rk1O = none ∧ t.ports.rk2O = none ∧
    ∀ n : BitVec 2, n ≠ 3 → exec (.ark n) t = .next (t.takeFault .euninit)) ∧
  encode (.ldk 0xA73B) = 0x1A73B

/-- R117. -/
def Obligations.LdsLoadsTheBlock : Prop :=
  (∀ imm16 : Word, encode (.lds imm16) = 0x20000 + imm16.setWidth 20 ∧
    decode ((0x2 : Nibble) ++ imm16) = .command (.lds imm16)) ∧
  (∀ (imm16 : Word) (s : State), exec (.lds imm16) s =
    .next { s with st := imm16, status := { s.status with sv := true } }) ∧
  (∀ first second : Byte, hi (ofBytes first second) = first ∧ lo (ofBytes first second) = second) ∧
  encode (.lds 0x1234) = 0x21234 ∧ blockToState 0x1234 = { s00 := 1, s10 := 2, s01 := 3, s11 := 4 }

/-- R94. -/
def Obligations.KexpExpandsTheKey : Prop :=
  encode .kexp = 0x30000 ∧ RaisesEfield 0x3 (fun imm => imm ≠ 0) ∧
  (∀ s : State, s.status.kv = true → exec .kexp s =
    .next { s with rk := keyExpansion Config.boxes s.key, status := { s.status with rkv := true } }) ∧
  (∀ s : State, s.status.kv = false → exec .kexp s = .next (s.takeFault .euninit)) ∧
  (∀ s : State, s.status.kv = true → andThen (exec .kexp s) (exec .kexp) = exec .kexp s) ∧
  (∀ s t : State, s.status.kv = true → exec .kexp s = .next t → t.rk.k0 = s.key) ∧
  keyExpansion Config.defaultBoxes 0x0000 = { k0 := 0x0000, k1 := 0x1919, k2 := 0x0D14 } ∧
  keyExpansion Config.defaultBoxes 0xFFFF = { k0 := 0xFFFF, k1 := 0x08F7, k2 := 0x6F98 } ∧
  keyExpansion Config.defaultBoxes 0xA73B = { k0 := 0xA73B, k1 := 0x1C27, k2 := 0x7651 }

/-- R87: each of the three round keys; the reserved index and the other reserved bits raise `EFIELD`. What the
term `ark 3`, which no word spells, does is `IndexThreeNamesNoRoundKey`. -/
def Obligations.ArkAddsTheRoundKey : Prop :=
  (encode (.ark 0) = 0x40000 ∧ encode (.ark 1) = 0x40001 ∧ encode (.ark 2) = 0x40002) ∧
  RaisesEfield 0x4 (fun imm => imm.extractLsb' 2 14 ≠ 0 ∨ imm.extractLsb' 0 2 = (3 : BitVec 2)) ∧
  (∀ s : State, s.status.sv = true → s.status.rkv = true →
    exec (.ark 0) s = .next { s with st := s.st ^^^ s.rk.k0 } ∧
    exec (.ark 1) s = .next { s with st := s.st ^^^ s.rk.k1 } ∧
    exec (.ark 2) s = .next { s with st := s.st ^^^ s.rk.k2 }) ∧
  (∀ (n : BitVec 2) (s : State), n ≠ 3 → s.status.sv = false ∨ s.status.rkv = false →
    exec (.ark n) s = .next (s.takeFault .euninit)) ∧
  (∀ (n : BitVec 2) (s : State), n ≠ 3 → s.status.sv = true → s.status.rkv = true →
    andThen (exec (.ark n) s) (exec (.ark n)) = .next s) ∧
  (∀ s : State, Inv s → s.status.sv = true → s.status.rkv = true →
    exec (.ark 0) s = .next { s with st := s.st ^^^ s.key }) ∧
  (∀ (k : Word) (n : BitVec 2) (s t : State), n ≠ 3 → exec (.ldk k) s = .next t →
    exec (.ark n) t = .next (t.takeFault .euninit)) ∧
  (0x1234 : Word) ^^^ (keyExpansion Config.defaultBoxes 0xA73B).k0 = 0xB50F

/-- Index 3 names no round key: no word decodes to the term `ark 3`, its own word 0x40003 raises `EFIELD` (R149), and the
assembler refuses 3 (R49), in the pseudo-instruction too (R50). Two clauses are the model's choice: `exec` of the term
takes `EFIELD` (log entry 6), and the name of the assembler's refusal is `operandOutOfRange` (log entry 11). -/
def Obligations.IndexThreeNamesNoRoundKey : Prop :=
  (∀ w : CmdWord, decode w ≠ .command (.ark 3)) ∧
  (∀ s : State, s.status.err = false → stepWord 0x40003 s = .next (s.takeFault .efield)) ∧
  (∀ s : State, exec (.ark 3) s = .next (s.takeFault .efield)) ∧
  assembleLine "ARK 3".toList = .error .operandOutOfRange ∧
  assembleLine "IARK 3".toList = .error .operandOutOfRange

/-- R82. -/
def Obligations.SubnibSubstitutes : Prop :=
  encode .subnib = 0x50000 ∧ RaisesEfield 0x5 (fun imm => imm ≠ 0) ∧
  (∀ s : State, s.status.sv = true → exec .subnib s = .next { s with st := subNib Config.boxes s.st }) ∧
  (∀ s : State, s.status.sv = false → exec .subnib s = .next (s.takeFault .euninit)) ∧
  subNib Config.defaultBoxes 0x0000 = 0x9999 ∧
  (∀ b : Word, subNib Config.defaultBoxes b = b ↔ b = 0xCCCC) ∧
  subNib Config.defaultBoxes 0x1234 = 0x4ABD

/-- R83. -/
def Obligations.IsubnibSubstitutesBack : Prop :=
  encode .isubnib = 0x60000 ∧ RaisesEfield 0x6 (fun imm => imm ≠ 0) ∧
  (∀ s : State, s.status.sv = true → exec .isubnib s = .next { s with st := invSubNib Config.boxes s.st }) ∧
  (∀ s : State, s.status.sv = false → exec .isubnib s = .next (s.takeFault .euninit)) ∧
  (∀ s : State, s.status.sv = true → andThen (exec .subnib s) (exec .isubnib) = .next s ∧
    andThen (exec .isubnib s) (exec .subnib) = .next s) ∧
  invSubNib Config.defaultBoxes 0x0000 = 0xAAAA ∧ invSubNib Config.defaultBoxes 0x4ABD = 0x1234 ∧
  invSubNib Config.defaultBoxes 0x1234 = 0x59B1

/-- R84. -/
def Obligations.ShrowSwapsRowOne : Prop :=
  encode .shrow = 0x70000 ∧ RaisesEfield 0x7 (fun imm => imm ≠ 0) ∧
  (∀ s : State, s.status.sv = true → exec .shrow s =
    .next { s with st := s.st.extractLsb' 12 4 ++ s.st.extractLsb' 0 4 ++ s.st.extractLsb' 4 4 ++
                          s.st.extractLsb' 8 4 }) ∧
  (∀ s : State, s.status.sv = false → exec .shrow s = .next (s.takeFault .euninit)) ∧
  (∀ s : State, s.status.sv = true → andThen (exec .shrow s) (exec .shrow) = .next s) ∧
  (∀ b : Word, nib b 1 = nib b 3 → shiftRow b = b) ∧ shiftRow 0x2EEE = 0x2EEE ∧ shiftRow 0x1234 = 0x1432

/-- R85; that the next state is `s` with `ST` alone changed says that `GP` and `GV` are unchanged. -/
def Obligations.MixcolMixesColumns : Prop :=
  encode .mixcol = 0x80000 ∧ RaisesEfield 0x8 (fun imm => imm ≠ 0) ∧
  (∀ s : State, s.status.sv = true → exec .mixcol s = .next { s with st := mixCol s.st }) ∧
  (∀ s : State, s.status.sv = false → exec .mixcol s = .next (s.takeFault .euninit)) ∧
  mixCol 0x0000 = 0x0000 ∧ mixCol 0x1000 = 0x1400 ∧ mixCol 0x0100 = 0x4100 ∧ mixCol 0x0010 = 0x0014 ∧
  mixCol 0x0001 = 0x0041 ∧ mixCol 0xFFFF = 0x6666 ∧ mixCol 0x1234 = 0x9608

/-- R86. -/
def Obligations.ImixcolUnmixesColumns : Prop :=
  encode .imixcol = 0x90000 ∧ RaisesEfield 0x9 (fun imm => imm ≠ 0) ∧
  (∀ s : State, s.status.sv = true → exec .imixcol s = .next { s with st := invMixCol s.st }) ∧
  (∀ s : State, s.status.sv = false → exec .imixcol s = .next (s.takeFault .euninit)) ∧
  (∀ s : State, s.status.sv = true → andThen (exec .mixcol s) (exec .imixcol) = .next s ∧
    andThen (exec .imixcol s) (exec .mixcol) = .next s) ∧
  invMixCol 0x0000 = 0x0000 ∧ invMixCol 0x1000 = 0x9200 ∧ invMixCol 0x0100 = 0x2900 ∧
  invMixCol 0x0010 = 0x0092 ∧ invMixCol 0x0001 = 0x0029 ∧ invMixCol 0xFFFF = 0x3333 ∧
  invMixCol 0x9608 = 0x1234 ∧ invMixCol 0x1234 = 0xD304

/-- R102; `RKV` is not required. -/
def Obligations.EncEncryptsTheBlock : Prop :=
  encode .enc = 0xA0000 ∧ RaisesEfield 0xA (fun imm => imm ≠ 0) ∧
  (∀ s : State, s.status.kv = true → s.status.sv = true → exec .enc s =
    .next { s with rk := keyExpansion Config.boxes s.key
                   st := encrypt Config.boxes s.st s.key
                   status := { s.status with rkv := true } }) ∧
  (∀ s : State, s.status.kv = false ∨ s.status.sv = false → exec .enc s = .next (s.takeFault .euninit)) ∧
  (∀ s : State, s.status.kv = true → s.status.sv = true → andThen (exec .enc s) (exec .enc) =
    .next { s with rk := keyExpansion Config.boxes s.key
                   st := encrypt Config.boxes (encrypt Config.boxes s.st s.key) s.key
                   status := { s.status with rkv := true } }) ∧
  encrypt Config.defaultBoxes (encrypt Config.defaultBoxes 0x1234 0xA73B) 0xA73B ≠ 0x1234 ∧
  (∀ s : State, s.status.kv = true → s.status.sv = true → andThen (exec .enc s) (exec .dec) =
    .next { s with rk := keyExpansion Config.boxes s.key, status := { s.status with rkv := true } }) ∧
  encrypt Config.defaultBoxes 0x0000 0x0000 = 0x071E ∧ encrypt Config.defaultBoxes 0x1234 0xA73B = 0x9B24 ∧
  keyExpansion Config.defaultBoxes 0xA73B = { k0 := 0xA73B, k1 := 0x1C27, k2 := 0x7651 } ∧
  (keyMix 0x1234 0xA73B = 0xB50F ∧ subNib Config.defaultBoxes 0xB50F = 0x3197 ∧ shiftRow 0x3197 = 0x3791 ∧
    mixCol 0x3791 = 0xCBD3 ∧ keyMix 0xCBD3 0x1C27 = 0xD7F4 ∧ subNib Config.defaultBoxes 0xD7F4 = 0xE57D ∧
    shiftRow 0xE57D = 0xED75 ∧ keyMix 0xED75 0x7651 = 0x9B24)

/-- R103; `RK` is left in the forward order. -/
def Obligations.DecDecryptsTheBlock : Prop :=
  encode .dec = 0xB0000 ∧ RaisesEfield 0xB (fun imm => imm ≠ 0) ∧
  (∀ s : State, s.status.kv = true → s.status.sv = true → exec .dec s =
    .next { s with rk := keyExpansion Config.boxes s.key
                   st := decrypt Config.boxes s.st s.key
                   status := { s.status with rkv := true } }) ∧
  (∀ s : State, s.status.kv = false ∨ s.status.sv = false → exec .dec s = .next (s.takeFault .euninit)) ∧
  (∀ s t : State, s.status.kv = true → s.status.sv = true → exec .dec s = .next t → t.rk.k0 = s.key) ∧
  (∀ s : State, s.status.kv = true → s.status.sv = true → andThen (exec .dec s) (exec .enc) =
    .next { s with rk := keyExpansion Config.boxes s.key, status := { s.status with rkv := true } }) ∧
  decrypt Config.defaultBoxes 0x9B24 0xA73B = 0x1234 ∧
  (keyMix 0x9B24 0x7651 = 0xED75 ∧ shiftRow 0xED75 = 0xE57D ∧ invSubNib Config.defaultBoxes 0xE57D = 0xD7F4 ∧
    keyMix 0xD7F4 0x1C27 = 0xCBD3 ∧ invMixCol 0xCBD3 = 0x3791 ∧ shiftRow 0x3791 = 0x3197 ∧
    invSubNib Config.defaultBoxes 0x3197 = 0xB50F ∧ keyMix 0xB50F 0xA73B = 0x1234)

/-- R64. -/
def Obligations.GfmulMultiplies : Prop :=
  (∀ a b : Nibble, encode (.gfmul a b) = 0xC0000 + 16 * a.setWidth 20 + b.setWidth 20) ∧
  RaisesEfield 0xC (fun imm => imm.extractLsb' 8 8 ≠ (0 : Byte)) ∧
  (∀ (a b : Nibble) (s : State), exec (.gfmul a b) s =
    .next { s with gp := gfMul a b, status := { s.status with gv := true } }) ∧
  (∀ a : Nibble, gfMul a 0 = 0 ∧ gfMul 0 a = 0 ∧ gfMul a 1 = a) ∧ gfMul 15 15 = 0xA ∧
  encode (.gfmul 4 9) = 0xC0049 ∧ carrylessProduct 4 9 = 0b100100 ∧ gfMul 4 9 = 0x2

/-! ### Frames -/

/-- R82 to R87, R14: the round commands change `ST` alone, and a fault changes `ERR` and `ECODE` alone. -/
def Obligations.RoundCommandsFrame : Prop :=
  ∀ (i : Instr) (s t : State), (i ∈ [.subnib, .isubnib, .shrow, .mixcol, .imixcol] ∨ ∃ n, i = .ark n) →
    exec i s = .next t →
    t.key = s.key ∧ t.rk = s.rk ∧ t.gp = s.gp ∧ t.inputs = s.inputs ∧ t.status.kv = s.status.kv ∧
    t.status.sv = s.status.sv ∧ t.status.rkv = s.status.rkv ∧ t.status.gv = s.status.gv ∧
    (t.status = s.status ∨ ∃ c, t = s.takeFault c)

/-- R94, R102, R103: `KEXP`, `ENC`, `DEC` change `RK`, `RKV`, and, but for `KEXP`, `ST`; a fault changes `ERR` and
`ECODE` alone. -/
def Obligations.KeyedCommandsFrame : Prop :=
  ∀ (i : Instr) (s t : State), i ∈ [.kexp, .enc, .dec] → exec i s = .next t →
    t.key = s.key ∧ t.gp = s.gp ∧ t.inputs = s.inputs ∧ t.status.kv = s.status.kv ∧
    t.status.sv = s.status.sv ∧ t.status.gv = s.status.gv ∧ (i = .kexp → t.st = s.st) ∧
    ((t.status.err = s.status.err ∧ t.status.ecode = s.status.ecode) ∨ t = s.takeFault .euninit)

/-- R115, R116, R117, R64: what the commands that read no register leave unchanged; they never fault. -/
def Obligations.LoadsAndProductFrame : Prop :=
  (∀ s t : State, exec .nop s = .next t → t = s) ∧
  (∀ (k : Word) (s t : State), exec (.ldk k) s = .next t →
    t.st = s.st ∧ t.rk = s.rk ∧ t.gp = s.gp ∧ t.inputs = s.inputs ∧ t.status.sv = s.status.sv ∧
    t.status.gv = s.status.gv ∧ t.status.err = s.status.err ∧ t.status.ecode = s.status.ecode) ∧
  (∀ (b : Word) (s t : State), exec (.lds b) s = .next t →
    t.key = s.key ∧ t.rk = s.rk ∧ t.gp = s.gp ∧ t.inputs = s.inputs ∧ t.status.kv = s.status.kv ∧
    t.status.rkv = s.status.rkv ∧ t.status.gv = s.status.gv ∧ t.status.err = s.status.err ∧
    t.status.ecode = s.status.ecode) ∧
  (∀ (a b : Nibble) (s t : State), exec (.gfmul a b) s = .next t →
    t.key = s.key ∧ t.st = s.st ∧ t.rk = s.rk ∧ t.inputs = s.inputs ∧ t.status.kv = s.status.kv ∧
    t.status.sv = s.status.sv ∧ t.status.rkv = s.status.rkv ∧ t.status.err = s.status.err ∧
    t.status.ecode = s.status.ecode)

/-! ### The arithmetic and the primitives -/

/-- R60: addition is XOR of the coefficients and multiplication is polynomial multiplication with coefficients modulo 2,
reduced modulo x⁴ + x + 1; the product has degree below 4 since it is a nibble. -/
def Obligations.GfMulIsPolynomialProduct : Prop :=
  let P : Nibble → Polynomial (ZMod 2) := fun a =>
    ∑ i ∈ Finset.range 4, if a.getLsbD i then Polynomial.X ^ i else 0
  (∀ a b : Nibble, P (a ^^^ b) = P a + P b) ∧
  (∀ a b : Nibble, (Polynomial.X ^ 4 + Polynomial.X + 1) ∣ P a * P b - P (gfMul a b))

/-- R62: the laws of the multiplier, the eight inverse pairs, that each nonzero nibble has one inverse, and the constants
the cipher multiplies by. -/
def Obligations.GfMulLaws : Prop :=
  (∀ a b : Nibble, gfMul a b = gfMul b a) ∧
  (∀ a b c : Nibble, gfMul (gfMul a b) c = gfMul a (gfMul b c)) ∧
  (∀ a b c : Nibble, gfMul a (b ^^^ c) = gfMul a b ^^^ gfMul a c) ∧
  (∀ a : Nibble, gfMul a 0 = 0 ∧ gfMul 0 a = 0 ∧ gfMul a 1 = a) ∧
  (∀ a : Nibble, a ≠ 0 → ∃! b : Nibble, gfMul a b = 1) ∧
  (gfMul 1 1 = 1 ∧ gfMul 2 9 = 1 ∧ gfMul 3 0xE = 1 ∧ gfMul 4 0xD = 1 ∧ gfMul 5 0xB = 1 ∧ gfMul 6 7 = 1 ∧
    gfMul 8 0xF = 1 ∧ gfMul 0xA 0xC = 1) ∧
  Config.mix = { m00 := 1, m01 := 4, m10 := 4, m11 := 1 } ∧ Config.imix = { m00 := 9, m01 := 2, m10 := 2, m11 := 9 }

/-- R73: whatever the contents, `SBOX` is a permutation and each table undoes the other; in the default tables 0xC is
the only fixed point. -/
def Obligations.BoxesAreInversePermutations : Prop :=
  (∀ c : Config.Boxes, Function.Bijective c.sub ∧ Function.Bijective c.inv ∧
    (∀ n : Nibble, c.inv (c.sub n) = n) ∧ (∀ n : Nibble, c.sub (c.inv n) = n)) ∧
  Config.defaultBoxes.sub 0 = 9 ∧ Config.defaultBoxes.inv 9 = 0 ∧
  (∀ n : Nibble, Config.defaultBoxes.sub n = n ↔ n = 0xC)

/-- R74, R75: the State view of a block, and back. -/
def Obligations.BlockAndStateConvert : Prop :=
  (∀ b : Word, (blockToState b).s00 = b.extractLsb' 12 4 ∧ (blockToState b).s10 = b.extractLsb' 8 4 ∧
    (blockToState b).s01 = b.extractLsb' 4 4 ∧ (blockToState b).s11 = b.extractLsb' 0 4) ∧
  (∀ m : Matrix, stateToBlock m = m.s00 ++ m.s10 ++ m.s01 ++ m.s11) ∧
  (∀ b : Word, stateToBlock (blockToState b) = b) ∧ (∀ m : Matrix, blockToState (stateToBlock m) = m)

/-- R76, R77: every entry of the State through the table, and each undoes the other, for any tables. -/
def Obligations.SubNibActsOnEveryEntry : Prop :=
  ∀ (c : Config.Boxes) (b : Word),
    (let m := blockToState b
     blockToState (subNib c b) = { s00 := c.sub m.s00, s10 := c.sub m.s10, s01 := c.sub m.s01, s11 := c.sub m.s11 } ∧
     blockToState (invSubNib c b) =
       { s00 := c.inv m.s00, s10 := c.inv m.s10, s01 := c.inv m.s01, s11 := c.inv m.s11 }) ∧
    subNib c b = c.sub (nib b 0) ++ c.sub (nib b 1) ++ c.sub (nib b 2) ++ c.sub (nib b 3) ∧
    invSubNib c b = c.inv (nib b 0) ++ c.inv (nib b 1) ++ c.inv (nib b 2) ++ c.inv (nib b 3) ∧
    invSubNib c (subNib c b) = b ∧ subNib c (invSubNib c b) = b

/-- R78: the two entries of row 1 change places, row 0 is unchanged; on the block, nibbles 1 and 3; it undoes itself; and
it is not the transpose of the matrix. -/
def Obligations.ShiftRowSwapsRowOne : Prop :=
  (∀ b : Word, let m := blockToState b
    blockToState (shiftRow b) = { s00 := m.s00, s10 := m.s11, s01 := m.s01, s11 := m.s10 }) ∧
  (∀ b : Word, shiftRow b = nib b 0 ++ nib b 3 ++ nib b 2 ++ nib b 1) ∧
  (∀ b : Word, shiftRow b = (b &&& 0xF0F0) ||| ((b &&& 0x0F00) >>> 8) ||| ((b &&& 0x000F) <<< 8)) ∧
  (∀ b : Word, shiftRow (shiftRow b) = b) ∧
  (∃ b : Word, let m := blockToState b
    blockToState (shiftRow b) ≠ { s00 := m.s00, s10 := m.s01, s01 := m.s10, s11 := m.s11 })

/-- R79, R80: matrix times each column of the State, by the constants 1, 4 and 9, 2, and each undoes the other on every
block, the product of the matrices being the identity. -/
def Obligations.MixColActsOnEveryColumn : Prop :=
  (gfMul 1 9 ^^^ gfMul 4 2 = 1 ∧ gfMul 1 2 ^^^ gfMul 4 9 = 0) ∧
  ∀ b : Word, let m := blockToState b
    blockToState (mixCol b) =
      { s00 := gfMul 1 m.s00 ^^^ gfMul 4 m.s10, s10 := gfMul 4 m.s00 ^^^ gfMul 1 m.s10
        s01 := gfMul 1 m.s01 ^^^ gfMul 4 m.s11, s11 := gfMul 4 m.s01 ^^^ gfMul 1 m.s11 } ∧
    mixCol b = (nib b 0 ^^^ gfMul 4 (nib b 1)) ++ (gfMul 4 (nib b 0) ^^^ nib b 1) ++
      (nib b 2 ^^^ gfMul 4 (nib b 3)) ++ (gfMul 4 (nib b 2) ^^^ nib b 3) ∧
    blockToState (invMixCol b) =
      { s00 := gfMul 9 m.s00 ^^^ gfMul 2 m.s10, s10 := gfMul 2 m.s00 ^^^ gfMul 9 m.s10
        s01 := gfMul 9 m.s01 ^^^ gfMul 2 m.s11, s11 := gfMul 2 m.s01 ^^^ gfMul 9 m.s11 } ∧
    invMixCol b = (gfMul 9 (nib b 0) ^^^ gfMul 2 (nib b 1)) ++ (gfMul 2 (nib b 0) ^^^ gfMul 9 (nib b 1)) ++
      (gfMul 9 (nib b 2) ^^^ gfMul 2 (nib b 3)) ++ (gfMul 2 (nib b 2) ^^^ gfMul 9 (nib b 3)) ∧
    invMixCol (mixCol b) = b ∧ mixCol (invMixCol b) = b

/-- R81: entry by entry the round key's own State is added, which is the 16-bit XOR, its own inverse. -/
def Obligations.KeyMixAddsEntryByEntry : Prop :=
  ∀ b k : Word, let m := blockToState b
    let r := blockToState k
    blockToState (keyMix b k) =
      { s00 := m.s00 ^^^ r.s00, s10 := m.s10 ^^^ r.s10, s01 := m.s01 ^^^ r.s01, s11 := m.s11 ^^^ r.s11 } ∧
    keyMix b k = b ^^^ k ∧ keyMix (keyMix b k) k = b

/-- R88: three primitives are linear, the substitutions are not (for the default tables), and the shift of row 1
commutes with the substitutions for any tables. -/
def Obligations.PrimitivesLinearity : Prop :=
  (∀ x y : Word, shiftRow (x ^^^ y) = shiftRow x ^^^ shiftRow y ∧ mixCol (x ^^^ y) = mixCol x ^^^ mixCol y ∧
    invMixCol (x ^^^ y) = invMixCol x ^^^ invMixCol y) ∧
  (shiftRow 0 = 0 ∧ mixCol 0 = 0 ∧ invMixCol 0 = 0) ∧
  subNib Config.defaultBoxes 0 = 0x9999 ∧
  (¬ ∀ x y : Word, subNib Config.defaultBoxes (x ^^^ y) =
    subNib Config.defaultBoxes x ^^^ subNib Config.defaultBoxes y) ∧
  (¬ ∀ x y : Word, invSubNib Config.defaultBoxes (x ^^^ y) =
    invSubNib Config.defaultBoxes x ^^^ invSubNib Config.defaultBoxes y) ∧
  (∀ (c : Config.Boxes) (b : Word), shiftRow (subNib c b) = subNib c (shiftRow b) ∧
    shiftRow (invSubNib c b) = invSubNib c (shiftRow b))

/-- R89: the substitutions act on four nibble lanes, the column mixes on two byte lanes and the key mix on sixteen bit
lanes, each lane independently of the others. -/
def Obligations.PrimitivesActOnLanes : Prop :=
  (∀ (c : Config.Boxes) (x y : Word) (i : Nat), i < 4 → nib x i = nib y i →
    nib (subNib c x) i = nib (subNib c y) i ∧ nib (invSubNib c x) i = nib (invSubNib c y) i) ∧
  (∀ x y : Word, (hi x = hi y → hi (mixCol x) = hi (mixCol y) ∧ hi (invMixCol x) = hi (invMixCol y)) ∧
    (lo x = lo y → lo (mixCol x) = lo (mixCol y) ∧ lo (invMixCol x) = lo (invMixCol y))) ∧
  (∀ (x k : Word) (i : Nat), i < 16 → (keyMix x k).getLsbD i = (x.getLsbD i ^^ k.getLsbD i))

/-- R90, R91, R92: the pieces of the key schedule, for any tables; the rotation undoes itself and commutes with the
substitution. -/
def Obligations.KeyScheduleWordSteps : Prop :=
  (∀ w : Byte, rotNib w = w.extractLsb' 0 4 ++ w.extractLsb' 4 4 ∧ rotNib (rotNib w) = w ∧
    rotNib w = w.rotateLeft 4 ∧ rotNib w = w.rotateRight 4) ∧
  (∀ (c : Config.Boxes) (w : Byte), subWord c w = c.sub (w.extractLsb' 4 4) ++ c.sub (w.extractLsb' 0 4)) ∧
  (∀ (c : Config.Boxes) (w rcon : Byte), keyG c w rcon = subWord c (rotNib w) ^^^ rcon ∧
    subWord c (rotNib w) = rotNib (subWord c w)) ∧
  rotNib 0x3B = 0xB3 ∧ subWord Config.defaultBoxes 0xB3 = 0x3B ∧ keyG Config.defaultBoxes 0x3B 0x80 = 0xBB ∧
  keyG Config.defaultBoxes 0x00 0x80 = 0x19

/-- R93, R95: the three round keys as the equations of R93 give them, for any tables, and the facts of R95. -/
def Obligations.KeyExpansionEquations : Prop :=
  ∀ (c : Config.Boxes) (k : Word),
    (∀ w0 w1 w2 w3 w4 w5 : Byte, w0 = k.extractLsb' 8 8 → w1 = k.extractLsb' 0 8 → w2 = w0 ^^^ keyG c w1 0x80 →
      w3 = w2 ^^^ w1 → w4 = w2 ^^^ keyG c w3 0x30 → w5 = w4 ^^^ w3 →
      keyExpansion c k = { k0 := w0 ++ w1, k1 := w2 ++ w3, k2 := w4 ++ w5 } ∧
      w3 = w0 ^^^ w1 ^^^ keyG c w1 0x80 ∧ w5 = w2 ^^^ keyG c w3 0x30 ^^^ w3) ∧
    (keyExpansion c k).k0 = k

/-! ### The cipher -/

/-- R105: for any tables, each key's decryption undoes its encryption and the reverse, on all blocks; so encryption
under each key is a bijection of the blocks. -/
def Obligations.DecryptInvertsEncrypt : Prop :=
  ∀ (c : Config.Boxes) (k : Word),
    (∀ p : Word, decrypt c (encrypt c p k) k = p) ∧ (∀ x : Word, encrypt c (decrypt c x k) k = x) ∧
    Function.Bijective (fun p => encrypt c p k)

/-- R104: the nine primitive commands end in exactly the state `ENC` ends in; with `KV = 0` both fault and the end states
agree; with `KV = 1` and `SV = 0` both fault, the nine commands having executed `KEXP`. -/
def Obligations.EncEqualsNineCommands : Prop :=
  ∀ s : State, s.status.err = false →
    (s.status.kv = true → s.status.sv = true →
      ∃ t, runWords encryptWords s = .next t ∧ stepWord (encode .enc) s = .next t ∧ t.status.err = false) ∧
    (s.status.kv = false →
      runWords encryptWords s = .next (s.takeFault .euninit) ∧
      stepWord (encode .enc) s = .next (s.takeFault .euninit)) ∧
    (s.status.kv = true → s.status.sv = false →
      runWords encryptWords s =
        .next (State.takeFault .euninit
          { s with rk := keyExpansion Config.boxes s.key, status := { s.status with rkv := true } }) ∧
      stepWord (encode .enc) s = .next (s.takeFault .euninit))

/-- R107: the same for `DEC`. -/
def Obligations.DecEqualsNineCommands : Prop :=
  ∀ s : State, s.status.err = false →
    (s.status.kv = true → s.status.sv = true →
      ∃ t, runWords decryptWords s = .next t ∧ stepWord (encode .dec) s = .next t ∧ t.status.err = false) ∧
    (s.status.kv = false →
      runWords decryptWords s = .next (s.takeFault .euninit) ∧
      stepWord (encode .dec) s = .next (s.takeFault .euninit)) ∧
    (s.status.kv = true → s.status.sv = false →
      runWords decryptWords s =
        .next (State.takeFault .euninit
          { s with rk := keyExpansion Config.boxes s.key, status := { s.status with rkv := true } }) ∧
      stepWord (encode .dec) s = .next (s.takeFault .euninit))

/-! ### The assembler -/

/-- R49: the text of every well-formed command assembles to that command. -/
def Obligations.AssemblerReadsWhatItPrints : Prop :=
  ∀ i : Instr, i.wellFormed = true → assembleLine (showInstr i) = .ok [i]

/-- R50: the three aliases and their expansions. That `IARK 3` is refused is `IndexThreeNamesNoRoundKey`. -/
def Obligations.PseudoInstructionsExpand : Prop :=
  AsmLine.ishrow.expand.map encode = [0x70000] ∧
  (∀ n : BitVec 2, (AsmLine.iark n).expand.map encode = [0x40000 + n.setWidth 20]) ∧
  (∀ k p : Word, (AsmLine.ldks k p).expand = [.ldk k, .lds p]) ∧
  assembleLine "ISHROW".toList = .ok [.shrow] ∧ assembleLine "IARK 2".toList = .ok [.ark 2] ∧
  assembleLine "LDKS 0xA73B, 4660".toList = .ok [.ldk 0xA73B, .lds 0x1234] ∧
  (∀ w : CmdWord, disassemble w ≠ some "ISHROW".toList ∧
    ∀ t, disassemble w = some t → t.take 4 ≠ "IARK".toList ∧ t.take 4 ≠ "LDKS".toList)
end

