-- ==== Sys2Proof/Laws/Word.lean ====
section
/-! SUPPORT. Cutting and joining words: the fields of a command word, the nibbles and the bytes of a block. The first
lemmas state bit access of a concatenation at the widths of this hardware, where simp's own lemma about `m + n` bits
does not match. -/

namespace Sys2Proof

theorem cmdWord_getLsbD (op : Nibble) (imm : Word) (i : Nat) :
    (op ++ imm : CmdWord).getLsbD i = if i < 16 then imm.getLsbD i else op.getLsbD (i - 16) :=
  BitVec.getLsbD_append

theorem byte_getLsbD (x y : Nibble) (i : Nat) :
    (x ++ y : Byte).getLsbD i = if i < 4 then y.getLsbD i else x.getLsbD (i - 4) :=
  BitVec.getLsbD_append

theorem word_getLsbD (x y : Byte) (i : Nat) :
    (x ++ y : Word).getLsbD i = if i < 8 then y.getLsbD i else x.getLsbD (i - 8) :=
  BitVec.getLsbD_append

/-! ### The fields of a command word -/

@[simp] theorem opField_append (op : Nibble) (imm : Word) : opField (op ++ imm) = op := by
  ext i hi
  simp only [opField, BitVec.getElem_extractLsb', cmdWord_getLsbD]
  grind

@[simp] theorem immField_append (op : Nibble) (imm : Word) : immField (op ++ imm) = imm := by
  ext i hi
  simp only [immField, BitVec.getElem_extractLsb', cmdWord_getLsbD]
  grind

/-- Two command words with the same opcode and the same operand field are equal. -/
theorem cmdWord_ext {w v : CmdWord} (h : opField w = opField v) (h' : immField w = immField v) : w = v := by
  apply BitVec.eq_of_getLsbD_eq
  intro i hi
  by_cases hlt : i < 16
  · simpa [immField, BitVec.getLsbD_extractLsb', hlt] using congrArg (BitVec.getLsbD · i) h'
  · have hs : i - 16 < 4 := by omega
    have ha : 16 + (i - 16) = i := by omega
    simpa [opField, BitVec.getLsbD_extractLsb', hs, ha] using congrArg (BitVec.getLsbD · (i - 16)) h

/-- A command word is its opcode above its operand field (R40). -/
theorem opField_append_immField (w : CmdWord) : opField w ++ immField w = w :=
  cmdWord_ext (opField_append _ _) (immField_append _ _)

@[simp] theorem opField_encode (i : Instr) : opField (encode i) = i.opcode := opField_append _ _

@[simp] theorem immField_encode (i : Instr) : immField (encode i) = i.immediate := immField_append _ _

/-- A command word as a number: the opcode counts 65536, the operand field 1. -/
theorem cmdWord_toNat (w : CmdWord) : w.toNat = (opField w).toNat * 65536 + (immField w).toNat := by
  simp only [opField, immField, BitVec.extractLsb'_toNat, Nat.shiftRight_eq_div_pow]
  omega

namespace Machine

/-! ### The nibbles and the bytes of a block -/

@[simp] theorem nib_ofNibs_zero (a b c d : Nibble) : nib (ofNibs a b c d) 0 = a := by
  ext i hi
  simp [nib, ofNibs, BitVec.getElem_extractLsb']
  grind

@[simp] theorem nib_ofNibs_one (a b c d : Nibble) : nib (ofNibs a b c d) 1 = b := by
  ext i hi
  simp [nib, ofNibs, BitVec.getElem_extractLsb']
  grind

@[simp] theorem nib_ofNibs_two (a b c d : Nibble) : nib (ofNibs a b c d) 2 = c := by
  ext i hi
  simp [nib, ofNibs, BitVec.getElem_extractLsb']
  grind

@[simp] theorem nib_ofNibs_three (a b c d : Nibble) : nib (ofNibs a b c d) 3 = d := by
  ext i hi
  simp [nib, ofNibs, BitVec.getElem_extractLsb']
  grind

/-- The bits of a block from its nibbles. -/
theorem ofNibs_getLsbD (a b c d : Nibble) (i : Nat) : (ofNibs a b c d).getLsbD i =
    if i < 4 then d.getLsbD i else if i < 8 then c.getLsbD (i - 4) else if i < 12 then b.getLsbD (i - 8)
    else a.getLsbD (i - 12) := by
  simp only [ofNibs]
  grind

/-- Two blocks with the same four nibbles are equal. -/
theorem word_ext_nib {x y : Word} (h0 : nib x 0 = nib y 0) (h1 : nib x 1 = nib y 1) (h2 : nib x 2 = nib y 2)
    (h3 : nib x 3 = nib y 3) : x = y := by
  apply BitVec.eq_of_getLsbD_eq
  intro i hi
  have key (k j : Nat) (h : nib x k = nib y k) (hj : j < 4) :
      x.getLsbD (12 - 4 * k + j) = y.getLsbD (12 - 4 * k + j) := by
    simpa [nib, BitVec.getLsbD_extractLsb', hj] using congrArg (BitVec.getLsbD · j) h
  rcases (by omega : (i < 4) ∨ (4 ≤ i ∧ i < 8) ∨ (8 ≤ i ∧ i < 12) ∨ (12 ≤ i ∧ i < 16)) with hr | hr | hr | hr
  · simpa using key 3 i h3 hr
  · simpa [show 12 - 4 * 2 + (i - 4) = i by omega] using key 2 (i - 4) h2 (by omega)
  · simpa [show 12 - 4 * 1 + (i - 8) = i by omega] using key 1 (i - 8) h1 (by omega)
  · simpa [show 12 - 4 * 0 + (i - 12) = i by omega] using key 0 (i - 12) h0 (by omega)

/-- A block is its four nibbles (R75). -/
theorem ofNibs_nib (b : Word) : ofNibs (nib b 0) (nib b 1) (nib b 2) (nib b 3) = b :=
  word_ext_nib (by simp) (by simp) (by simp) (by simp)

/-- Four nibbles are determined by the block they make. -/
theorem ofNibs_inj {a b c d a' b' c' d' : Nibble} :
    ofNibs a b c d = ofNibs a' b' c' d' ↔ a = a' ∧ b = b' ∧ c = c' ∧ d = d' := by
  constructor
  · intro h
    exact ⟨by simpa using congrArg (nib · 0) h, by simpa using congrArg (nib · 1) h,
      by simpa using congrArg (nib · 2) h, by simpa using congrArg (nib · 3) h⟩
  · rintro ⟨rfl, rfl, rfl, rfl⟩
    rfl

@[simp] theorem nib_xor (x y : Word) (i : Nat) : nib (x ^^^ y) i = nib x i ^^^ nib y i := by
  ext j hj
  simp [nib, BitVec.getElem_extractLsb']

/-- XOR of two blocks, nibble by nibble. -/
theorem ofNibs_xor (a b c d a' b' c' d' : Nibble) : ofNibs a b c d ^^^ ofNibs a' b' c' d' =
    ofNibs (a ^^^ a') (b ^^^ b') (c ^^^ c') (d ^^^ d') :=
  word_ext_nib (by simp) (by simp) (by simp) (by simp)

@[simp] theorem hi_ofBytes (x y : Byte) : hi (ofBytes x y) = x := by
  ext i h
  simp only [Machine.hi, ofBytes, BitVec.getElem_extractLsb', word_getLsbD]
  grind

@[simp] theorem lo_ofBytes (x y : Byte) : lo (ofBytes x y) = y := by
  ext i h
  simp only [Machine.lo, ofBytes, BitVec.getElem_extractLsb', word_getLsbD]
  grind

/-- A block is its two bytes, the first one high (R31). -/
theorem ofBytes_hi_lo (b : Word) : ofBytes (hi b) (lo b) = b := by
  apply BitVec.eq_of_getLsbD_eq
  intro i h
  simp only [ofBytes, word_getLsbD, Machine.hi, Machine.lo, BitVec.getLsbD_extractLsb']
  grind

end Machine
end Sys2Proof
end

