-- ==== Sys2Proof/Laws/Decode.lean ====
section
/-! SUPPORT. What the decoder answers, opcode by opcode, for a word written as an opcode above an operand field. -/

namespace Sys2Proof

@[simp] theorem decode_append (op : Nibble) (imm : Word) : decode (op ++ imm) = decodeFields op imm := by
  simp [decode]

/-- A field check answers the command itself or `EFIELD`, never another command. -/
theorem checkFields_eq_command {f : Format} {imm : Word} {i j : Instr} :
    checkFields f imm i = .command j ↔ fieldsLegal f imm = true ∧ i = j := by
  unfold checkFields
  split <;> simp_all

theorem checkFields_of_legal {f : Format} {imm : Word} (h : fieldsLegal f imm = true) (i : Instr) :
    checkFields f imm i = .command i := by
  simp [checkFields, h]

theorem checkFields_of_illegal {f : Format} {imm : Word} (h : fieldsLegal f imm = false) (i : Instr) :
    checkFields f imm i = .rejected .efield := by
  simp [checkFields, h]

@[simp] theorem fieldsLegal_z (imm : Word) : fieldsLegal .z imm = (imm == 0) := rfl
@[simp] theorem fieldsLegal_i (imm : Word) : fieldsLegal .i imm = true := rfl
@[simp] theorem fieldsLegal_n (imm : Word) :
    fieldsLegal .n imm = (imm.extractLsb' 2 14 == 0 && nField imm != 3) := rfl
@[simp] theorem fieldsLegal_g (imm : Word) : fieldsLegal .g imm = (imm.extractLsb' 8 8 == 0) := rfl

@[simp] theorem decodeFields_nop (imm : Word) : decodeFields 0#4 imm = checkFields .z imm .nop := rfl
@[simp] theorem decodeFields_ldk (imm : Word) : decodeFields 1#4 imm = .command (.ldk imm) := rfl
@[simp] theorem decodeFields_lds (imm : Word) : decodeFields 2#4 imm = .command (.lds imm) := rfl
@[simp] theorem decodeFields_kexp (imm : Word) : decodeFields 3#4 imm = checkFields .z imm .kexp := rfl
@[simp] theorem decodeFields_ark (imm : Word) :
    decodeFields 4#4 imm = checkFields .n imm (.ark (nField imm)) := rfl
@[simp] theorem decodeFields_subnib (imm : Word) : decodeFields 5#4 imm = checkFields .z imm .subnib := rfl
@[simp] theorem decodeFields_isubnib (imm : Word) : decodeFields 6#4 imm = checkFields .z imm .isubnib := rfl
@[simp] theorem decodeFields_shrow (imm : Word) : decodeFields 7#4 imm = checkFields .z imm .shrow := rfl
@[simp] theorem decodeFields_mixcol (imm : Word) : decodeFields 8#4 imm = checkFields .z imm .mixcol := rfl
@[simp] theorem decodeFields_imixcol (imm : Word) : decodeFields 9#4 imm = checkFields .z imm .imixcol := rfl
@[simp] theorem decodeFields_enc (imm : Word) : decodeFields 10#4 imm = checkFields .z imm .enc := rfl
@[simp] theorem decodeFields_dec (imm : Word) : decodeFields 11#4 imm = checkFields .z imm .dec := rfl
@[simp] theorem decodeFields_gfmul (imm : Word) :
    decodeFields 12#4 imm = checkFields .g imm (.gfmul (aField imm) (bField imm)) := rfl
@[simp] theorem decodeFields_reserved_d (imm : Word) : decodeFields 13#4 imm = .rejected .eopcode := rfl
@[simp] theorem decodeFields_reserved_e (imm : Word) : decodeFields 14#4 imm = .rejected .eopcode := rfl
@[simp] theorem decodeFields_reserved_f (imm : Word) : decodeFields 15#4 imm = .rejected .eopcode := rfl

/-- The sixteen nibbles, one case each. -/
theorem nibble_cases (n : Nibble) : n = 0#4 ∨ n = 1#4 ∨ n = 2#4 ∨ n = 3#4 ∨ n = 4#4 ∨ n = 5#4 ∨ n = 6#4 ∨ n = 7#4 ∨
    n = 8#4 ∨ n = 9#4 ∨ n = 10#4 ∨ n = 11#4 ∨ n = 12#4 ∨ n = 13#4 ∨ n = 14#4 ∨ n = 15#4 := by
  decide +revert

/-- The operand field of a legal `ARK` is its index below fourteen zeros (R41). -/
theorem ark_immediate {imm : Word} (h : imm.extractLsb' 2 14 = 0#14) : 0#14 ++ nField imm = imm := by
  rw [← h]
  apply BitVec.eq_of_getLsbD_eq
  intro i hi
  simp only [nField]
  grind

/-- The operand field of a legal `GFMUL` is its two nibbles below eight zeros (R41). -/
theorem gfmul_immediate {imm : Word} (h : imm.extractLsb' 8 8 = 0#8) :
    0#8 ++ aField imm ++ bField imm = imm := by
  rw [← h]
  apply BitVec.eq_of_getLsbD_eq
  intro i hi
  simp only [aField, bField]
  grind

@[simp] theorem nField_ark (n : BitVec 2) : nField (0#14 ++ n) = n := by
  decide +revert

@[simp] theorem aField_gfmul (a b : Nibble) : aField (0#8 ++ a ++ b) = a := by
  decide +revert

@[simp] theorem bField_gfmul (a b : Nibble) : bField (0#8 ++ a ++ b) = b := by
  decide +revert

end Sys2Proof
end

