-- ==== Sys2Proof/Laws/State.lean ====
section
/-! SUPPORT. One lemma per field per update of the state and of `STATUS`, and what the ports show. -/

namespace Sys2Proof.Machine

/-! ### `STATUS` -/

@[simp] theorem Status.keyLoaded_kv (f : Status) : f.keyLoaded.kv = true := rfl
@[simp] theorem Status.keyLoaded_sv (f : Status) : f.keyLoaded.sv = f.sv := rfl
@[simp] theorem Status.keyLoaded_rkv (f : Status) : f.keyLoaded.rkv = false := rfl
@[simp] theorem Status.keyLoaded_gv (f : Status) : f.keyLoaded.gv = f.gv := rfl
@[simp] theorem Status.keyLoaded_err (f : Status) : f.keyLoaded.err = f.err := rfl
@[simp] theorem Status.keyLoaded_ecode (f : Status) : f.keyLoaded.ecode = f.ecode := rfl

@[simp] theorem Status.blockLoaded_kv (f : Status) : f.blockLoaded.kv = f.kv := rfl
@[simp] theorem Status.blockLoaded_sv (f : Status) : f.blockLoaded.sv = true := rfl
@[simp] theorem Status.blockLoaded_rkv (f : Status) : f.blockLoaded.rkv = f.rkv := rfl
@[simp] theorem Status.blockLoaded_gv (f : Status) : f.blockLoaded.gv = f.gv := rfl
@[simp] theorem Status.blockLoaded_err (f : Status) : f.blockLoaded.err = f.err := rfl
@[simp] theorem Status.blockLoaded_ecode (f : Status) : f.blockLoaded.ecode = f.ecode := rfl

@[simp] theorem Status.keysExpanded_kv (f : Status) : f.keysExpanded.kv = f.kv := rfl
@[simp] theorem Status.keysExpanded_sv (f : Status) : f.keysExpanded.sv = f.sv := rfl
@[simp] theorem Status.keysExpanded_rkv (f : Status) : f.keysExpanded.rkv = true := rfl
@[simp] theorem Status.keysExpanded_gv (f : Status) : f.keysExpanded.gv = f.gv := rfl
@[simp] theorem Status.keysExpanded_err (f : Status) : f.keysExpanded.err = f.err := rfl
@[simp] theorem Status.keysExpanded_ecode (f : Status) : f.keysExpanded.ecode = f.ecode := rfl
@[simp] theorem Status.keysExpanded_twice (f : Status) : f.keysExpanded.keysExpanded = f.keysExpanded := rfl

@[simp] theorem Status.productWritten_kv (f : Status) : f.productWritten.kv = f.kv := rfl
@[simp] theorem Status.productWritten_sv (f : Status) : f.productWritten.sv = f.sv := rfl
@[simp] theorem Status.productWritten_rkv (f : Status) : f.productWritten.rkv = f.rkv := rfl
@[simp] theorem Status.productWritten_gv (f : Status) : f.productWritten.gv = true := rfl
@[simp] theorem Status.productWritten_err (f : Status) : f.productWritten.err = f.err := rfl
@[simp] theorem Status.productWritten_ecode (f : Status) : f.productWritten.ecode = f.ecode := rfl

@[simp] theorem Status.faulted_kv (f : Status) (c : FaultCode) : (f.faulted c).kv = f.kv := rfl
@[simp] theorem Status.faulted_sv (f : Status) (c : FaultCode) : (f.faulted c).sv = f.sv := rfl
@[simp] theorem Status.faulted_rkv (f : Status) (c : FaultCode) : (f.faulted c).rkv = f.rkv := rfl
@[simp] theorem Status.faulted_gv (f : Status) (c : FaultCode) : (f.faulted c).gv = f.gv := rfl
@[simp] theorem Status.faulted_err (f : Status) (c : FaultCode) : (f.faulted c).err = true := rfl
@[simp] theorem Status.faulted_ecode (f : Status) (c : FaultCode) : (f.faulted c).ecode = c.ecode := rfl

@[simp] theorem Status.reset_kv : Status.reset.kv = false := rfl
@[simp] theorem Status.reset_sv : Status.reset.sv = false := rfl
@[simp] theorem Status.reset_rkv : Status.reset.rkv = false := rfl
@[simp] theorem Status.reset_gv : Status.reset.gv = false := rfl
@[simp] theorem Status.reset_err : Status.reset.err = false := rfl
@[simp] theorem Status.reset_ecode : Status.reset.ecode = 0 := rfl

/-- The fields of `STATUS` read back from the byte on `status_o`. -/
theorem Status.eq_fields_of_toByte (f : Status) :
    f = { kv := f.toByte.getLsbD 0, sv := f.toByte.getLsbD 1, rkv := f.toByte.getLsbD 2, gv := f.toByte.getLsbD 3
          err := f.toByte.getLsbD 4, ecode := f.toByte.extractLsb' 5 3 } := by
  obtain ⟨a, b, c, d, e, x⟩ := f
  revert a b c d e x
  decide

/-- No two settings of the fields give the same byte on `status_o`. -/
theorem Status.toByte_injective {f g : Status} (h : f.toByte = g.toByte) : f = g := by
  rw [f.eq_fields_of_toByte, g.eq_fields_of_toByte, h]

/-! ### The state -/

@[simp] theorem State.takeFault_key (c : FaultCode) (s : State) : (s.takeFault c).key = s.key := rfl
@[simp] theorem State.takeFault_st (c : FaultCode) (s : State) : (s.takeFault c).st = s.st := rfl
@[simp] theorem State.takeFault_rk (c : FaultCode) (s : State) : (s.takeFault c).rk = s.rk := rfl
@[simp] theorem State.takeFault_gp (c : FaultCode) (s : State) : (s.takeFault c).gp = s.gp := rfl
@[simp] theorem State.takeFault_status (c : FaultCode) (s : State) : (s.takeFault c).status = s.status.faulted c := rfl
@[simp] theorem State.takeFault_inputs (c : FaultCode) (s : State) : (s.takeFault c).inputs = s.inputs := rfl

@[simp] theorem State.takeReset_key (s : State) : s.takeReset.key = Config.resetWord := rfl
@[simp] theorem State.takeReset_st (s : State) : s.takeReset.st = Config.resetWord := rfl
@[simp] theorem State.takeReset_rk (s : State) : s.takeReset.rk = State.reset.rk := rfl
@[simp] theorem State.takeReset_gp (s : State) : s.takeReset.gp = Config.resetNibble := rfl
@[simp] theorem State.takeReset_status (s : State) : s.takeReset.status = Status.reset := rfl
@[simp] theorem State.takeReset_inputs (s : State) : s.takeReset.inputs = s.inputs := rfl

@[simp] theorem State.mapSt_key (f : Word → Word) (s : State) : (s.mapSt f).key = s.key := rfl
@[simp] theorem State.mapSt_st (f : Word → Word) (s : State) : (s.mapSt f).st = f s.st := rfl
@[simp] theorem State.mapSt_rk (f : Word → Word) (s : State) : (s.mapSt f).rk = s.rk := rfl
@[simp] theorem State.mapSt_gp (f : Word → Word) (s : State) : (s.mapSt f).gp = s.gp := rfl
@[simp] theorem State.mapSt_status (f : Word → Word) (s : State) : (s.mapSt f).status = s.status := rfl
@[simp] theorem State.mapSt_inputs (f : Word → Word) (s : State) : (s.mapSt f).inputs = s.inputs := rfl

/-- Two functions that undo each other on `ST` leave the state as it was. -/
theorem State.mapSt_undo {f g : Word → Word} (h : ∀ b, g (f b) = b) (s : State) : (s.mapSt f).mapSt g = s := by
  simp [State.mapSt, h]

@[simp] theorem State.writeRoundKeys_key (rk : RoundKeys) (s : State) : (s.writeRoundKeys rk).key = s.key := rfl
@[simp] theorem State.writeRoundKeys_st (rk : RoundKeys) (s : State) : (s.writeRoundKeys rk).st = s.st := rfl
@[simp] theorem State.writeRoundKeys_rk (rk : RoundKeys) (s : State) : (s.writeRoundKeys rk).rk = rk := rfl
@[simp] theorem State.writeRoundKeys_gp (rk : RoundKeys) (s : State) : (s.writeRoundKeys rk).gp = s.gp := rfl
@[simp] theorem State.writeRoundKeys_status (rk : RoundKeys) (s : State) :
    (s.writeRoundKeys rk).status = s.status.keysExpanded := rfl
@[simp] theorem State.writeRoundKeys_inputs (rk : RoundKeys) (s : State) :
    (s.writeRoundKeys rk).inputs = s.inputs := rfl

@[simp] theorem State.reset_status : State.reset.status = Status.reset := rfl
@[simp] theorem State.reset_inputs : State.reset.inputs = [] := rfl

/-- Ports that agree give statuses that agree, and equal registers wherever the valid flag is 1. -/
theorem State.ports_eq_iff (s t : State) : s.ports = t.ports ↔
    s.status = t.status ∧ (s.status.kv = true → s.key = t.key) ∧ (s.status.sv = true → s.st = t.st) ∧
    (s.status.rkv = true → s.rk = t.rk) ∧ (s.status.gv = true → s.gp = t.gp) := by
  constructor
  · intro h
    have hs : s.status = t.status := Status.toByte_injective (congrArg Ports.statusO h)
    refine ⟨hs, fun hk => ?_, fun hk => ?_, fun hk => ?_, fun hk => ?_⟩
    · simpa [State.ports, ← hs, hk] using congrArg Ports.keyO h
    · simpa [State.ports, ← hs, hk] using congrArg Ports.stO h
    · have h0 := congrArg Ports.rk0O h
      have h1 := congrArg Ports.rk1O h
      have h2 := congrArg Ports.rk2O h
      simp only [State.ports, ← hs, hk, if_true, Option.some.injEq] at h0 h1 h2
      cases hr : s.rk
      cases hr' : t.rk
      simp_all
    · simpa [State.ports, ← hs, hk] using congrArg Ports.gpO h
  · rintro ⟨hs, h1, h2, h3, h4⟩
    unfold State.ports
    rw [← hs]
    congr 1
    · split <;> simp_all
    · split <;> simp_all
    · split <;> simp_all
    · split <;> simp_all
    · split <;> simp_all
    · split <;> simp_all

end Sys2Proof.Machine
end

