-- ==== Sys2Proof/Laws/Ops.lean ====
section
/-! SUPPORT. What the shared operations, `exec` and `step` can do, each said once: cite these instead of unfolding. -/

namespace Sys2Proof.Machine

/-! ### The guard and the sequencing -/

theorem requireValid_of_true {v : Bool} (h : v = true) (f : State → State) (s : State) :
    requireValid v f s = .next (f s) := by
  simp [requireValid, h]

theorem requireValid_of_false {v : Bool} (h : v = false) (f : State → State) (s : State) :
    requireValid v f s = .next (s.takeFault .euninit) := by
  simp [requireValid, h]

/-- A guarded effect answers a next state: the effect where the flags are set, else the fault. -/
theorem requireValid_next {v : Bool} {f : State → State} {s t : State} (h : requireValid v f s = .next t) :
    (v = true ∧ t = f s) ∨ (v = false ∧ t = s.takeFault .euninit) := by
  cases v
  · exact .inr ⟨rfl, by simpa [requireValid] using h.symm⟩
  · exact .inl ⟨rfl, by simpa [requireValid] using h.symm⟩

@[simp] theorem andThen_next (s : State) (f : State → Outcome) : andThen (.next s) f = f s := rfl

@[simp] theorem RoundKeys.get?_zero (rk : RoundKeys) : rk.get? 0#2 = some rk.k0 := rfl
@[simp] theorem RoundKeys.get?_one (rk : RoundKeys) : rk.get? 1#2 = some rk.k1 := rfl
@[simp] theorem RoundKeys.get?_two (rk : RoundKeys) : rk.get? 2#2 = some rk.k2 := rfl
@[simp] theorem RoundKeys.get?_three (rk : RoundKeys) : rk.get? 3#2 = none := rfl

/-- The index 3 is the only one that names no round key (R42, R46). -/
theorem RoundKeys.get?_eq_none_iff (rk : RoundKeys) (n : BitVec 2) : rk.get? n = none ↔ n = 3#2 := by
  rcases (by decide +revert : n = 0#2 ∨ n = 1#2 ∨ n = 2#2 ∨ n = 3#2) with rfl | rfl | rfl | rfl <;>
    simp [RoundKeys.get?]

/-- `ARK` of a legal index is one guarded XOR into `ST`. -/
theorem execArk_of_some {n : BitVec 2} {s : State} {k : Word} (h : s.rk.get? n = some k) :
    execArk n s = requireValid (s.status.sv && s.status.rkv) (State.mapSt fun b => keyMix b k) s := by
  simp [execArk, h]

@[simp] theorem execArk_three (s : State) : execArk 3#2 s = .next (s.takeFault .efield) := rfl

/-! ### What a command can do -/

/-- The commands that change nothing but `ST`. -/
def isRound : Instr → Bool
  | .ark _ | .subnib | .isubnib | .shrow | .mixcol | .imixcol => true
  | _ => false

/-- A guarded effect always answers a next state. -/
theorem requireValid_answers_next (v : Bool) (f : State → State) (s : State) : ∃ t, requireValid v f s = .next t := by
  cases v <;> exact ⟨_, rfl⟩

/-- Everything a command can do: it takes a fault, or it has one of the effects of files 40 to 44. -/
theorem exec_next_cases {i : Instr} {s t : State} (h : exec i s = .next t) :
    (∃ c, t = s.takeFault c) ∨ (i = .nop ∧ t = s) ∨
    (∃ k, i = .ldk k ∧ t = { s with key := k, status := s.status.keyLoaded }) ∨
    (∃ b, i = .lds b ∧ t = { s with st := b, status := s.status.blockLoaded }) ∨
    (isRound i = true ∧ s.status.sv = true ∧ ∃ f, t = s.mapSt f) ∨
    (i = .kexp ∧ s.status.kv = true ∧ t = s.writeRoundKeys (keyExpansion Config.boxes s.key)) ∨
    ((i = .enc ∨ i = .dec) ∧ s.status.kv = true ∧ s.status.sv = true ∧
      ∃ f, t = (s.mapSt f).writeRoundKeys (keyExpansion Config.boxes s.key)) ∨
    (∃ a b, i = .gfmul a b ∧ t = { s with gp := gfMul a b, status := s.status.productWritten }) := by
  have round {v : Bool} {f : Word → Word} (hr : isRound i = true) (hv : v = true → s.status.sv = true)
      (h : requireValid v (State.mapSt f) s = .next t) :
      (∃ c, t = s.takeFault c) ∨ (isRound i = true ∧ s.status.sv = true ∧ ∃ f, t = s.mapSt f) :=
    (requireValid_next h).elim (fun ⟨hv', ht⟩ => .inr ⟨hr, hv hv', f, ht⟩) (fun ⟨_, ht⟩ => .inl ⟨_, ht⟩)
  cases i with
  | nop => exact .inr (.inl ⟨rfl, by simpa [exec, execNop] using h.symm⟩)
  | ldk k => exact .inr (.inr (.inl ⟨k, rfl, by simpa [exec, execLdk] using h.symm⟩))
  | lds b => exact .inr (.inr (.inr (.inl ⟨b, rfl, by simpa [exec, execLds] using h.symm⟩)))
  | gfmul a b =>
    exact .inr (.inr (.inr (.inr (.inr (.inr (.inr ⟨a, b, rfl, by simpa [exec, execGfmul] using h.symm⟩))))))
  | kexp =>
    rcases requireValid_next h with ⟨hk, ht⟩ | ⟨_, ht⟩
    · exact .inr (.inr (.inr (.inr (.inr (.inl ⟨rfl, hk, ht⟩)))))
    · exact .inl ⟨_, ht⟩
  | enc =>
    simp only [exec, execEnc] at h
    rcases requireValid_next h with ⟨hk, ht⟩ | ⟨_, ht⟩
    · simp only [Bool.and_eq_true] at hk
      exact .inr (.inr (.inr (.inr (.inr (.inr (.inl ⟨.inl rfl, hk.1, hk.2, _, ht⟩))))))
    · exact .inl ⟨_, ht⟩
  | dec =>
    simp only [exec, execDec] at h
    rcases requireValid_next h with ⟨hk, ht⟩ | ⟨_, ht⟩
    · simp only [Bool.and_eq_true] at hk
      exact .inr (.inr (.inr (.inr (.inr (.inr (.inl ⟨.inr rfl, hk.1, hk.2, _, ht⟩))))))
    · exact .inl ⟨_, ht⟩
  | ark n =>
    cases hn : s.rk.get? n with
    | none => exact .inl ⟨.efield, by simpa [exec, execArk, hn] using h.symm⟩
    | some k =>
      rcases round rfl (by simp only [Bool.and_eq_true]; exact And.left) ((execArk_of_some hn).symm.trans h) with
        h | h
      · exact .inl h
      · exact .inr (.inr (.inr (.inr (.inl h))))
  | subnib | isubnib | shrow | mixcol | imixcol =>
    rcases round rfl id h with h | h
    · exact .inl h
    · exact .inr (.inr (.inr (.inr (.inl h))))

/-- Every command answers a next state, in every state. -/
theorem exec_answers_next (i : Instr) (s : State) : ∃ t, exec i s = .next t := by
  cases i with
  | ark n =>
    cases hn : s.rk.get? n with
    | none => exact ⟨s.takeFault .efield, by simp [exec, execArk, hn]⟩
    | some k =>
      obtain ⟨t, ht⟩ := requireValid_answers_next (s.status.sv && s.status.rkv) (State.mapSt fun b => keyMix b k) s
      exact ⟨t, (execArk_of_some hn).trans ht⟩
  | nop | ldk | lds | gfmul => exact ⟨_, rfl⟩
  | kexp | subnib | isubnib | shrow | mixcol | imixcol | enc | dec =>
    simp only [exec, execKexp, execSubnib, execIsubnib, execShrow, execMixcol, execImixcol, execEnc, execDec]
    exact requireValid_answers_next _ _ _

/-- No command takes or adds a move of the host. -/
theorem exec_inputs {i : Instr} {s t : State} (h : exec i s = .next t) : t.inputs = s.inputs := by
  rcases exec_next_cases h with ⟨_, rfl⟩ | ⟨_, rfl⟩ | ⟨_, _, rfl⟩ | ⟨_, _, rfl⟩ | ⟨_, _, _, rfl⟩ | ⟨_, _, rfl⟩ |
    ⟨_, _, _, _, rfl⟩ | ⟨_, _, _, rfl⟩ <;> rfl

/-- No command reads the host's moves: with others pending it does the same. -/
theorem exec_with_inputs {i : Instr} {s t : State} (x : List Edge) (h : exec i s = .next t) :
    exec i { s with inputs := x } = .next { t with inputs := x } := by
  have guard {v : Bool} {f : State → State} (hf : f { s with inputs := x } = { f s with inputs := x })
      (h : requireValid v f s = .next t) : requireValid v f { s with inputs := x } = .next { t with inputs := x } := by
    rcases requireValid_next h with ⟨rfl, rfl⟩ | ⟨rfl, rfl⟩
    · simp [requireValid, hf]
    · rfl
  cases i with
  | ark n =>
    simp only [exec, execArk] at h ⊢
    cases hn : s.rk.get? n with
    | none =>
      rw [hn] at h
      cases h
      rfl
    | some k =>
      rw [hn] at h
      exact guard rfl h
  | nop | ldk | lds | gfmul =>
    cases h
    rfl
  | kexp | subnib | isubnib | shrow | mixcol | imixcol => exact guard rfl h
  | enc =>
    simp only [exec, execEnc] at h ⊢
    exact guard rfl h
  | dec =>
    simp only [exec, execDec] at h ⊢
    exact guard rfl h

/-! ### What a word and an edge can do -/

theorem stepWord_of_err {s : State} (h : s.status.err = true) (w : CmdWord) : stepWord w s = .next s := by
  simp [stepWord, h]

theorem stepWord_of_command {s : State} {w : CmdWord} {i : Instr} (h : s.status.err = false)
    (hd : decode w = .command i) : stepWord w s = exec i s := by
  simp [stepWord, h, hd]

theorem stepWord_of_rejected {s : State} {w : CmdWord} {r : Rejection} (h : s.status.err = false)
    (hd : decode w = .rejected r) : stepWord w s = .next (s.takeFault (FaultCode.ofRejection r)) := by
  simp [stepWord, h, hd]

@[simp] theorem step_of_no_inputs {s : State} (h : s.inputs = []) : step s = .next s := by
  simp [step, nextEdge, h]

theorem step_of_edge {s : State} {e : Edge} {rest : List Edge} (h : s.inputs = e :: rest) :
    step s = clockEdge e { s with inputs := rest } := by
  simp [step, nextEdge, h]

theorem clockEdge_of_rst {e : Edge} (h : e.rst = true) (s : State) : clockEdge e s = .next s.takeReset := by
  simp [clockEdge, h]

theorem clockEdge_of_command {e : Edge} (h : e.rst = false) (hv : e.cmdValid = true) (s : State) :
    clockEdge e s = stepWord e.cmd s := by
  simp [clockEdge, h, hv]

theorem clockEdge_of_idle {e : Edge} (h : e.rst = false) (hv : e.cmdValid = false) (s : State) :
    clockEdge e s = .next s := by
  simp [clockEdge, h, hv]

@[simp] theorem clockEdge_presentWord (w : CmdWord) (s : State) : clockEdge (presentWord w) s = stepWord w s := rfl

/-- Everything a word can do: it is discarded, raises a fault, or executes. -/
theorem stepWord_next_cases {w : CmdWord} {s t : State} (h : stepWord w s = .next t) :
    (s.status.err = true ∧ t = s) ∨ (s.status.err = false ∧ ∃ c, t = s.takeFault c) ∨
    (s.status.err = false ∧ ∃ i, decode w = .command i ∧ exec i s = .next t) := by
  cases he : s.status.err
  · cases hd : decode w with
    | command i => exact .inr (.inr ⟨rfl, i, rfl, (stepWord_of_command he hd).symm.trans h⟩)
    | rejected r =>
      refine .inr (.inl ⟨rfl, FaultCode.ofRejection r, ?_⟩)
      simpa using ((stepWord_of_rejected he hd).symm.trans h).symm
  · exact .inl ⟨rfl, by simpa using ((stepWord_of_err he w).symm.trans h).symm⟩

/-- Every word answers a next state, in every state. -/
theorem stepWord_answers_next (w : CmdWord) (s : State) : ∃ t, stepWord w s = .next t := by
  cases he : s.status.err
  · cases hd : decode w with
    | command i =>
      obtain ⟨t, ht⟩ := exec_answers_next i s
      exact ⟨t, (stepWord_of_command he hd).trans ht⟩
    | rejected r => exact ⟨_, stepWord_of_rejected he hd⟩
  · exact ⟨s, stepWord_of_err he w⟩

/-- No word reads the host's moves, and none takes or adds one. -/
theorem stepWord_with_inputs {w : CmdWord} {s t : State} (x : List Edge) (h : stepWord w s = .next t) :
    stepWord w { s with inputs := x } = .next { t with inputs := x } := by
  cases he : s.status.err
  · cases hd : decode w with
    | command i =>
      rw [stepWord_of_command he hd] at h
      exact (stepWord_of_command (s := { s with inputs := x }) he hd).trans (exec_with_inputs x h)
    | rejected r =>
      rw [stepWord_of_rejected he hd] at h
      cases h
      exact stepWord_of_rejected (s := { s with inputs := x }) he hd
  · rw [stepWord_of_err he w] at h
    cases h
    exact stepWord_of_err (s := { s with inputs := x }) he w

/-- Everything a step can do: nothing to do, reset, idle, or a command word. -/
theorem step_next_cases {s t : State} (h : step s = .next t) :
    (s.inputs = [] ∧ t = s) ∨
    ∃ e rest, s.inputs = e :: rest ∧
      ((e.rst = true ∧ t = State.takeReset { s with inputs := rest }) ∨
       (e.rst = false ∧ e.cmdValid = false ∧ t = { s with inputs := rest }) ∨
       (e.rst = false ∧ e.cmdValid = true ∧ stepWord e.cmd { s with inputs := rest } = .next t)) := by
  cases hi : s.inputs with
  | nil => exact .inl ⟨rfl, by simpa using ((step_of_no_inputs hi).symm.trans h).symm⟩
  | cons e rest =>
    rw [step_of_edge hi] at h
    refine .inr ⟨e, rest, rfl, ?_⟩
    cases hr : e.rst
    · cases hv : e.cmdValid
      · rw [clockEdge_of_idle hr hv] at h
        exact .inr (.inl ⟨rfl, rfl, by simpa using h.symm⟩)
      · rw [clockEdge_of_command hr hv] at h
        exact .inr (.inr ⟨rfl, rfl, h⟩)
    · rw [clockEdge_of_rst hr] at h
      exact .inl ⟨rfl, by simpa using h.symm⟩

end Sys2Proof.Machine
end

