-- ==== Sys2Proof/Laws/PerInstr.lean ====
section
/-! SUPPORT. One law for every constructor of Instr: the encoder's word of a command matches the command's own row of
the opcode map (30_encoding.md R44). -/

namespace Sys2Proof.Laws.RowOfWord

open Sys2Proof

/-- The word of `i` matches the mask and the pattern of the row of `i`, and the row is one of the map. -/
def Statement (i : Instr) : Prop :=
  i.row ∈ opcodeMap ∧ encode i &&& i.row.mask = i.row.pattern

theorem nop : Statement .nop := ⟨by decide, by decide⟩

/-- A mask that keeps the opcode alone keeps the opcode of a word and drops its operand field. -/
theorem and_opcode_mask (op : Nibble) (imm : Word) : (op ++ imm : CmdWord) &&& 0xF0000 = op ++ (0 : Word) := by
  have hm : (0xF0000 : CmdWord) = (0xF : Nibble) ++ (0 : Word) := by decide
  have ho : op &&& 0xF = op := by decide +revert
  apply BitVec.eq_of_getLsbD_eq
  intro i hi
  rw [hm, BitVec.getLsbD_and, cmdWord_getLsbD, cmdWord_getLsbD, cmdWord_getLsbD]
  split
  · simp
  · rw [← BitVec.getLsbD_and, ho]

theorem ldk (imm16 : Word) : Statement (.ldk imm16) :=
  ⟨by change (⟨"LDK", .i, 0x10000, 0xF0000⟩ : OpcodeRow) ∈ opcodeMap; decide, and_opcode_mask 0x1 imm16⟩

theorem lds (imm16 : Word) : Statement (.lds imm16) :=
  ⟨by change (⟨"LDS", .i, 0x20000, 0xF0000⟩ : OpcodeRow) ∈ opcodeMap; decide, and_opcode_mask 0x2 imm16⟩

theorem kexp : Statement .kexp := ⟨by decide, by decide⟩

theorem ark (n : BitVec 2) : Statement (.ark n) := by
  constructor <;> revert n <;> decide

theorem subnib : Statement .subnib := ⟨by decide, by decide⟩

theorem isubnib : Statement .isubnib := ⟨by decide, by decide⟩

theorem shrow : Statement .shrow := ⟨by decide, by decide⟩

theorem mixcol : Statement .mixcol := ⟨by decide, by decide⟩

theorem imixcol : Statement .imixcol := ⟨by decide, by decide⟩

theorem enc : Statement .enc := ⟨by decide, by decide⟩

theorem dec : Statement .dec := ⟨by decide, by decide⟩

theorem gfmul (a b : Nibble) : Statement (.gfmul a b) := by
  constructor <;> revert a b <;> decide

end Sys2Proof.Laws.RowOfWord
end

