-- ==== Sys2Proof/Laws/Run.lean ====
section
/-! SUPPORT. `Host.Core.run` of this machine, one step at a time, in the machine's own types. -/

namespace Sys2Proof.Machine

@[simp] theorem core_run_zero (s : State) : core.run 0 s = .next s := rfl

/-- A run of `n + 1` steps is a step and then a run of `n`. -/
theorem core_run_succ (n : Nat) (s : State) : core.run (n + 1) s = andThen (step s) (core.run n) := by
  have h : step s = core.step s := rfl
  unfold andThen
  cases hs : step s with
  | next t => rw [h] at hs; simp [Host.Core.run, hs]
  | fault r => cases r
  | refused r => rw [h] at hs; simp [Host.Core.run, hs]; rfl

/-- A property that every step keeps holds after every run. -/
theorem core_run_keeps {P : State → Prop} (hP : ∀ s t, P s → step s = .next t → P t) (n : Nat) :
    ∀ s t : State, P s → core.run n s = .next t → P t := by
  induction n with
  | zero =>
    rintro s t hs ⟨⟩
    exact hs
  | succ n ih =>
    intro s t hs h
    rw [core_run_succ] at h
    cases hst : step s with
    | next s' =>
      rw [hst] at h
      exact ih s' t (hP s s' hs hst) h
    | fault r => cases r
    | refused r =>
      rw [hst] at h
      cases h

end Sys2Proof.Machine
end

