-- ==== Sys2Proof/Tests/Slice0.lean ====
section
/-! SUPPORT. Tests of the model against the spec's own tables and vectors, each named with its source, and for every
obligation with hypotheses a named witness that meets them together. Expected values are copied from spec/. -/

namespace Sys2Proof.Tests

open Sys2Proof Sys2Proof.Machine Sys2Proof.Safety

/-- The next state of an outcome, if it is one, so that `decide` can compare it. -/
def after (o : Outcome) : Option State :=
  match o with
  | .next s => some s
  | .fault _ => none
  | .refused _ => none

/-- A state with every valid flag 1, which meets the invariant: key 0xA73B and its round keys (95_test_vectors.md 2.8). -/
def ready (b : Word) : State :=
  { key := 0xA73B, st := b, rk := { k0 := 0xA73B, k1 := 0x1C27, k2 := 0x7651 }, gp := 2
    status := { kv := true, sv := true, rkv := true, gv := true, err := false, ecode := 0 }, inputs := [] }

/-- The same with key 0x2D55 (95_test_vectors.md 2.8). -/
def readyHi (b : Word) : State :=
  { ready b with key := 0x2D55, rk := { k0 := 0x2D55, k1 := 0xBCE9, k2 := 0xA34A } }

/-- The registers after running words from reset, and `STATUS` as a byte (95_test_vectors.md 2.10). -/
def statusAfter (ws : List CmdWord) : Option Byte := (after (runWords ws State.reset)).map fun s => s.status.toByte

/-! ### Well-formedness: the one check there is -/

theorem test_wellFormed_refuses_ark_three : (Instr.ark 3).wellFormed = false := by decide
theorem test_wellFormed_takes_ark_two : (Instr.ark 2).wellFormed = true := by decide

/-! ### Decoding: one word per command, written out from R41 and R44 -/

theorem test_decode_nop : decode 0b00000000000000000000 = .command .nop := by decide
theorem test_decode_ldk : decode 0b00011010011100111011 = .command (.ldk 0xA73B) := by decide
theorem test_decode_lds : decode 0b00100001001000110100 = .command (.lds 0x1234) := by decide
theorem test_decode_kexp : decode 0b00110000000000000000 = .command .kexp := by decide
theorem test_decode_ark : decode 0b01000000000000000001 = .command (.ark 1) := by decide
theorem test_decode_subnib : decode 0b01010000000000000000 = .command .subnib := by decide
theorem test_decode_isubnib : decode 0b01100000000000000000 = .command .isubnib := by decide
theorem test_decode_shrow : decode 0b01110000000000000000 = .command .shrow := by decide
theorem test_decode_mixcol : decode 0b10000000000000000000 = .command .mixcol := by decide
theorem test_decode_imixcol : decode 0b10010000000000000000 = .command .imixcol := by decide
theorem test_decode_enc : decode 0b10100000000000000000 = .command .enc := by decide
theorem test_decode_dec : decode 0b10110000000000000000 = .command .dec := by decide
theorem test_decode_gfmul : decode 0b11000000000001001001 = .command (.gfmul 4 9) := by decide

/-- 95_test_vectors.md section 2.1, the words that fault. -/
theorem test_decode_rejects : decode 0x00001 = .rejected .efield ∧ decode 0x30100 = .rejected .efield ∧
    decode 0x40003 = .rejected .efield ∧ decode 0x40004 = .rejected .efield ∧ decode 0xC0149 = .rejected .efield ∧
    decode 0xD0000 = .rejected .eopcode ∧ decode 0xE1234 = .rejected .eopcode ∧ decode 0xFFFFF = .rejected .eopcode ∧
    decode 0xD0001 = .rejected .eopcode := by decide

/-- No word matches two rows of the opcode map (R44). -/
theorem test_opcodeMap_rows_disjoint : opcodeMap.Pairwise fun r r' =>
    r.pattern &&& (r.mask &&& r'.mask) ≠ r'.pattern &&& (r.mask &&& r'.mask) := by decide

/-- The rows' mnemonics and patterns are those of the opcode table, in its order (R44). -/
theorem test_opcodeMap_names : opcodeMap.map (fun r => (r.mnemonic, r.pattern.toNat / 65536)) =
    [("NOP", 0), ("LDK", 1), ("LDS", 2), ("KEXP", 3), ("ARK", 4), ("SUBNIB", 5), ("ISUBNIB", 6)] ++
    [("SHROW", 7), ("MIXCOL", 8), ("IMIXCOL", 9), ("ENC", 10), ("DEC", 11), ("GFMUL", 12)] := by decide

/-- A table word of 20 bits in three bytes, and one with a bit above bit 19. -/
theorem test_decodeTableWord : decodeTableWord 24 0xC0049 = some (.gfmul 4 9) ∧ decodeTableWord 24 0x100000 = none ∧
    decodeTableWord 24 0x40003 = none := by decide

/-! ### GF(16) -/

/-- The rows of R65, one hexadecimal number per row, column 0 the leading digit. -/
def gfRow (a : Nat) : Nat :=
  (List.range 16).foldl (fun v b => v * 16 + (gfMul (BitVec.ofNat 4 a) (BitVec.ofNat 4 b)).toNat) 0

/-- R65, rows 0 to 7. -/
theorem test_gfMul_table_low : (List.range 8).map gfRow =
    [0x0000000000000000, 0x0123456789ABCDEF, 0x02468ACE3175B9FD, 0x0365CFA9B8DE7412] ++
    [0x048C37BF62EA51D9, 0x05AF72D8EB419C36, 0x06CABD71539FE824, 0x07E9F816DA3425CB] := by decide

/-- R65, rows 8 to F. -/
theorem test_gfMul_table_high : ((List.range 8).map fun a => gfRow (a + 8)) =
    [0x083B6E5DC4F7A291, 0x09182B3A4D5C6F7E, 0x0A7DE493F5821B6C, 0x0B5EA1F47C29D683] ++
    [0x0CB759E2A61DF348, 0x0D941C852FB63EA7, 0x0EF1D32C97684AB5, 0x0FD2964B1EC3875A] := by decide

/-- R61: bit 7 of the product is never set, and the zero case is no exception. -/
theorem test_carrylessProduct_degree : ∀ a b : Nibble, (carrylessProduct a b).getLsbD 7 = false := by decide

theorem test_gfmul_writes_gp : after (exec (.gfmul 15 15) (ready 0)) = some { ready 0 with gp := 0xA } := by decide

/-! ### Tables -/

/-- R71, R72. -/
theorem test_default_boxes :
    (List.range 16).map (fun n => (Config.boxes.sub (BitVec.ofNat 4 n)).toNat) =
      [0x9, 0x4, 0xA, 0xB, 0xD, 0x1, 0x8, 0x5, 0x6, 0x2, 0x0, 0x3, 0xC, 0xE, 0xF, 0x7] ∧
    (List.range 16).map (fun n => (Config.boxes.inv (BitVec.ofNat 4 n)).toNat) =
      [0xA, 0x5, 0x9, 0xB, 0x1, 0x7, 0x8, 0xF, 0x6, 0x0, 0x2, 0x3, 0xC, 0x4, 0xD, 0xE] := by decide

/-! ### The round commands: 95_test_vectors.md sections 2.4 to 2.7 -/

theorem test_subnib : after (exec .subnib (ready 0x89AB)) = some (ready 0x6203) := by decide
theorem test_isubnib : after (exec .isubnib (ready 0xCDEF)) = some (ready 0xC4DE) := by decide
theorem test_shrow : after (exec .shrow (ready 0x4567)) = some (ready 0x4765) := by decide
theorem test_mixcol : after (exec .mixcol (ready 0x6C40)) = some (ready 0x3743) := by decide
theorem test_imixcol : after (exec .imixcol (ready 0x4C60)) = some (ready 0x9E3C) := by decide
theorem test_ark_one : after (exec (.ark 1) (ready 0xCBD3)) = some (ready 0xD7F4) := by decide
theorem test_ark_two : after (exec (.ark 2) (ready 0xED75)) = some (ready 0x9B24) := by decide

/-! ### Key schedule and engine: sections 1.1, 1.3, 2.8, 2.9 -/

/-- Section 2.8, key 0x5A5A, and the textbook key 0x4AF5 of section 1.3. -/
theorem test_keyExpansion :
    keyExpansion Config.boxes 0x5A5A = { k0 := 0x5A5A, k1 := 0xDB81, k2 := 0xAD2C } ∧
    keyExpansion Config.boxes 0x4AF5 = { k0 := 0x4AF5, k1 := 0xDD28, k2 := 0x87AF } := by decide

theorem test_kexp : after (exec .kexp { ready 0x1234 with key := 0x2D55 }) = some (readyHi 0x1234) := by decide

/-- Section 1.1, the golden vector. -/
theorem test_enc : after (exec .enc (ready 0x1234)) = some (ready 0x9B24) := by decide

/-- Section 1.1, "HI". -/
theorem test_dec : after (exec .dec (readyHi 0x20B2)) = some (readyHi 0x4849) := by decide

/-- Section 1.3, the two textbook vectors. -/
theorem test_textbook_vectors : encrypt Config.boxes 0xD728 0x4AF5 = 0x24EC ∧
    encrypt Config.boxes 0x6F6B 0xA73B = 0x0738 := by decide

/-! ### Loads, faults and reset: section 2.10 -/

theorem test_nop : after (exec .nop (ready 0x1234)) = some (ready 0x1234) := by decide
theorem test_ldk : statusAfter [0x1A73B] = some 0x01 ∧ statusAfter [0x1A73B, 0x30000, 0x12D55] = some 0x01 := by decide
theorem test_lds : statusAfter [0x21234] = some 0x02 := by decide
theorem test_fault_euninit : statusAfter [0xA0000] = some 0x70 ∧ statusAfter [0x1A73B, 0xA0000] = some 0x71 := by decide
theorem test_fault_efield : statusAfter [0x21234, 0x50001] = some 0x52 ∧ statusAfter [0x00001] = some 0x50 ∧
    statusAfter [0x40003] = some 0x50 ∧ statusAfter [0x21234, 0x1A73B, 0x30000, 0x40004] = some 0x57 := by decide
theorem test_fault_eopcode : statusAfter [0xD0001] = some 0x30 ∧ statusAfter [0xD0000, 0x1A73B] = some 0x30 := by decide
theorem test_gfmul_status : statusAfter [0xC0049] = some 0x08 := by decide

/-- Reset beats the command on the same edge (R160), and leaves `STATUS` 0x00 with no register visible (R161). -/
theorem test_reset_beats_command :
    (after (step { ready 0x1234 with inputs := [presentReset true 0xA0000] })).map State.ports =
      some { keyO := none, stO := none, rk0O := none, rk1O := none, rk2O := none, gpO := none, statusO := 0x00,
             cmdReady := true } := by decide

/-- From reset, a placed word runs at the very next step. -/
theorem test_withFetchWord_runs : after (step (State.reset.withFetchWord 24 0x1A73B)) =
    after (exec (.ldk 0xA73B) State.reset) := by decide

/-! ### The assembler: R49, R50 -/

theorem test_assemble_examples : assemble ["LDK 0xA73B ; key".toList, "".toList, "ARK 2".toList] = .ok [0x1A73B, 0x40002] ∧
    assemble ["GFMUL 4, 9".toList, "ENC".toList] = .ok [0xC0049, 0xA0000] := by decide
theorem test_assemble_refuses : assembleLine "ARK 3".toList = .error .operandOutOfRange ∧
    assembleLine "nop".toList = .error .unknownMnemonic ∧ assembleLine "ENC 1".toList = .error .wrongOperandCount ∧
    assembleLine "LDS 0x".toList = .error .malformedNumber := by decide
theorem test_listing : listingLine (.ldk 0xA73B) = "1A73B  ; LDK 0xA73B".toList ∧
    disassemble 0x70000 = some "SHROW".toList := by decide

/-! ### Witnesses: concrete values that meet the hypotheses of each obligation, clause by clause -/

theorem witness_DecodeInvertsEncode : (Instr.ark 2).wellFormed = true ∧ (Instr.gfmul 15 15).wellFormed = true := by decide
theorem witness_EncodeInvertsDecode : decode 0x40002 = .command (.ark 2) ∧ decode 0xC00FF = .command (.gfmul 15 15) := by
  decide
/-- Clause 2, and clause 3 with a word that matches a row. -/
theorem witness_DecodeFollowsOpcodeMap : decode 0x1FFFF = .command (.ldk 0xFFFF) ∧
    (⟨"GFMUL", .g, 0xC0000, 0xFFF00⟩ : OpcodeRow) ∈ opcodeMap ∧ (0xC00FF : CmdWord) &&& 0xFFF00 = 0xC0000 := by decide
/-- Each fault and none, with `ERR = 0`; the flags of clauses 3 and 4. -/
theorem witness_FaultsFollowPriority : State.reset.status.err = false ∧
    faultOf 0xF0000 State.reset.status = some .eopcode ∧ faultOf 0x40003 State.reset.status = some .efield ∧
    faultOf 0xC0100 State.reset.status = some .efield ∧ faultOf 0xB0000 State.reset.status = some .euninit ∧
    faultOf 0xC00FF State.reset.status = none ∧ State.reset.status.kv = false ∧ State.reset.status.sv = false := by decide
theorem witness_FaultWritesErrAndEcodeOnly : (ready 0x1234).status.err = false ∧
    faultOf 0xD0000 (ready 0x1234).status = some .eopcode ∧ faultOf 0x50001 (ready 0x1234).status = some .efield ∧
    State.reset.status.err = false ∧ faultOf 0x30000 State.reset.status = some .euninit := by decide
theorem witness_FaultedCoreDiscardsEveryWord : ((ready 0x1234).takeFault .efield).status.err = true := by decide
/-- Clause 1: a faulted core at a reset edge. Clause 2: the inputs it asks for. -/
theorem witness_OnlyResetClearsTheFault :
    ((ready 0x1234).takeFault .efield).status.err = true ∧
    (after (step { (ready 0x1234).takeFault .efield with inputs := [presentReset false 0] })).map
      (fun t => t.status.err) = some false := by decide
theorem witness_ResetLeavesOneState :
    ({ ready 0x1234 with inputs := [presentReset true 0xA0000] } : State).inputs = presentReset true 0xA0000 :: [] ∧
    (presentReset true 0xA0000).rst = true := by decide
/-- Two different pasts, and a following edge with `rst` 0. -/
theorem witness_ResetForgetsThePast :
    ({ ready 0x1234 with inputs := [presentReset true 0xA0000, presentWord 0x00000] } : State).inputs =
      presentReset true 0xA0000 :: [presentWord 0x00000] ∧
    ({ State.reset.takeFault .eopcode with inputs := [presentReset false 0] } : State).inputs = [presentReset false 0] ∧
    (presentReset true 0xA0000).rst = true ∧ (presentReset false 0).rst = true ∧
    (presentWord 0x00000).rst = false := by decide
/-- Clause 2, with a command edge. -/
theorem witness_ResetBeatsCommand :
    (after (step { ready 0x1234 with inputs := [presentWord 0x70000] })).isSome = true ∧
    (presentWord 0x70000).rst = false ∧ (ready 0x1234).status.kv = true ∧ (ready 0x1234).status.sv = true ∧
    (ready 0x1234).status.gv = true := by decide
theorem witness_ResetBeatsCommand_faulted :
    (after (step { (ready 0x1234).takeFault .efield with inputs := [presentWord 0x70000] })).isSome = true ∧
    ((ready 0x1234).takeFault .efield).status.err = true := by decide
/-- Each change of a flag that the clauses speak of. -/
theorem witness_FlagsChangeOnlyAsListed :
    ((after (exec (.ldk 1) (ready 0))).map fun t => (t.status.kv, t.status.rkv)) = some (true, false) ∧
    ((after (exec (.ldk 1) State.reset)).map fun t => t.status.kv) = some true ∧
    ((after (exec (.lds 1) State.reset)).map fun t => t.status.sv) = some true ∧
    ((after (exec .kexp { State.reset with status := { Status.reset with kv := true } })).map fun t =>
      t.status.rkv) = some true ∧
    ((after (exec (.gfmul 1 1) State.reset)).map fun t => t.status.gv) = some true ∧
    ((after (exec .enc State.reset)).map fun t => (t.status.err, t.status.ecode)) = some (true, 3) := by decide
/-- Each flag set, and each flag clear. -/
theorem witness_PortsShowValidRegisters :
    ((ready 0).status.kv = true ∧ (ready 0).status.sv = true ∧ (ready 0).status.rkv = true ∧ (ready 0).status.gv = true) ∧
    (State.reset.status.kv = false ∧ State.reset.status.sv = false ∧ State.reset.status.rkv = false ∧
      State.reset.status.gv = false) := by decide
/-- Two different states that look the same, and a run of one step from each. -/
theorem witness_HiddenBitsAreNeverObservable :
    SameVisible State.reset { State.reset with key := 0xFFFF, st := 0x1234 } ∧
    core.run 1 State.reset = .next State.reset ∧
    core.run 1 { State.reset with key := 0xFFFF, st := 0x1234 } = .next { State.reset with key := 0xFFFF, st := 0x1234 } :=
  ⟨⟨by decide, rfl⟩, rfl, rfl⟩
/-- A state with `RKV = 1` meets the invariant, and takes a step. -/
theorem witness_StepKeepsInvariant : Inv (ready 0x1234) ∧ step (ready 0x1234) = .next (ready 0x1234) :=
  ⟨⟨by decide, by decide, by decide, by decide⟩, rfl⟩
theorem witness_ReachableStatesMeetInvariant :
    core.run 1 { State.reset with inputs := [presentReset false 0] } = .next State.reset := rfl
theorem witness_StepRunsDecodedCommand :
    ({ ready 0 with inputs := [presentWord 0x21234] } : State).inputs = presentWord 0x21234 :: [] ∧
    (ready 0).status.err = false ∧ decode 0x21234 = .command (.lds 0x1234) ∧ (Instr.lds 0x1234).wellFormed = true := by
  decide
theorem witness_StepFollowsItsDefinition : ((ready 0).takeFault .efield).status.err = true ∧
    (ready 0).status.err = false ∧ decode 0x00000 = .command .nop ∧ decode 0xF0000 = .rejected .eopcode ∧
    decode 0x0FFFF = .rejected .efield := by decide
theorem witness_IdleHostLeavesRegisters : (ready 0).inputs = [] ∧
    ({ ready 0 with inputs := [⟨false, false, 0xA0000⟩, presentWord 0] } : State).inputs =
      [0xA0000].map (fun w => { rst := false, cmdValid := false, cmd := w }) ++ [presentWord 0] := by decide

theorem witness_BootOrder : State.reset.status = Status.reset ∧ (2 : BitVec 2) ≠ 3 ∧
    Instr.dec ∈ [Instr.kexp, .enc, .dec] ∧ Instr.imixcol ∈ [Instr.subnib, .isubnib, .shrow, .mixcol, .imixcol] ∧
    Instr.ark 2 ∈ [Instr.subnib, .isubnib, .shrow, .mixcol, .imixcol, .ark 0, .ark 1, .ark 2, .enc, .dec] := by decide

/-- The operand fields that `RaisesEfield` speaks of in each command's statement, at their boundaries, with `ERR = 0`. -/
theorem witness_RaisesEfield : (0x0001 : Word) ≠ 0 ∧ (0x8000 : Word) ≠ 0 ∧
    (0x0004 : Word).extractLsb' 2 14 ≠ 0 ∧ (0x0003 : Word).extractLsb' 0 2 = (3 : BitVec 2) ∧
    (0x0100 : Word).extractLsb' 8 8 ≠ (0 : Byte) ∧ (ready 0).status.err = false := by decide
/-- The one clause of `NopDoesNothing` with hypotheses: 0x00000 decodes to a command that never changes a state. -/
theorem witness_NopDoesNothing : decode 0x00000 = .command .nop ∧ ∀ s : State, exec .nop s = .next s :=
  ⟨by decide, fun _ => rfl⟩
theorem witness_LdkLoadsTheKey : (after (exec (.ldk 0xFFFF) (ready 0))).isSome = true ∧ (2 : BitVec 2) ≠ 3 := by decide
/-- Both values of the flags a command names: `KEXP` (`KV`), the round commands (`SV`), `ENC` and `DEC` (both). -/
theorem witness_KexpExpandsTheKey : (ready 0).status.kv = true ∧ State.reset.status.kv = false ∧
    (after (exec .kexp (ready 0))).isSome = true := by decide
theorem witness_ArkAddsTheRoundKey : (ready 0).status.sv = true ∧ (ready 0).status.rkv = true ∧ (0 : BitVec 2) ≠ 3 ∧
    (2 : BitVec 2) ≠ 3 ∧ State.reset.status.sv = false ∧ State.reset.status.rkv = false ∧
    (after (exec (.ldk 1) (ready 0))).isSome = true := by decide
theorem witness_ArkAddsTheRoundKey_inv : Inv (ready 0) := ⟨by decide, by decide, by decide, by decide⟩
theorem witness_IndexThreeNamesNoRoundKey : (ready 0x1234).status.err = false := by decide
theorem witness_SubnibSubstitutes : (ready 0).status.sv = true ∧ State.reset.status.sv = false := by decide
theorem witness_IsubnibSubstitutesBack : (ready 0xFFFF).status.sv = true ∧ State.reset.status.sv = false := by decide
theorem witness_ShrowSwapsRowOne : (ready 0x2EEE).status.sv = true ∧ State.reset.status.sv = false ∧
    nib 0x2EEE 1 = nib 0x2EEE 3 := by decide
theorem witness_MixcolMixesColumns : (ready 0xFFFF).status.sv = true ∧ State.reset.status.sv = false := by decide
theorem witness_ImixcolUnmixesColumns : (ready 0x1234).status.sv = true ∧ State.reset.status.sv = false := by decide
theorem witness_EncEncryptsTheBlock : (ready 0).status.kv = true ∧ (ready 0).status.sv = true ∧
    State.reset.status.kv = false ∧ State.reset.status.sv = false := by decide
theorem witness_DecDecryptsTheBlock : (ready 0).status.kv = true ∧ (ready 0).status.sv = true ∧
    State.reset.status.kv = false ∧ State.reset.status.sv = false ∧ (after (exec .dec (ready 0))).isSome = true := by decide
theorem witness_RoundCommandsFrame : Instr.imixcol ∈ [.subnib, .isubnib, .shrow, .mixcol, Instr.imixcol] ∧
    (after (exec .imixcol (ready 1))).isSome = true ∧ (after (exec (.ark 2) (ready 1))).isSome = true ∧
    (after (exec (.ark 3) (ready 1))).isSome = true ∧ (after (exec .subnib State.reset)).isSome = true := by decide
theorem witness_KeyedCommandsFrame : Instr.dec ∈ [.kexp, .enc, Instr.dec] ∧
    (after (exec .dec (ready 1))).isSome = true ∧ (after (exec .kexp State.reset)).isSome = true := by decide
theorem witness_LoadsAndProductFrame : (after (exec .nop (ready 1))).isSome = true ∧
    (after (exec (.ldk 1) (ready 1))).isSome = true ∧ (after (exec (.lds 1) (ready 1))).isSome = true ∧
    (after (exec (.gfmul 1 1) (ready 1))).isSome = true := by decide
theorem witness_GfMulLaws : (15 : Nibble) ≠ 0 := by decide
theorem witness_PrimitivesActOnLanes : nib 0x1234 3 = nib 0xFFF4 3 ∧ hi 0x1234 = hi 0x12FF ∧ lo 0x1234 = lo 0xFF34 := by
  decide
/-- The words `w0` to `w5` of the worked example of R94 meet the equations. -/
theorem witness_KeyExpansionEquations : (0xA7 : Byte) = (0xA73B : Word).extractLsb' 8 8 ∧
    (0x3B : Byte) = (0xA73B : Word).extractLsb' 0 8 ∧
    (0x1C : Byte) = 0xA7 ^^^ keyG Config.defaultBoxes 0x3B 0x80 ∧ (0x27 : Byte) = 0x1C ^^^ 0x3B ∧
    (0x76 : Byte) = 0x1C ^^^ keyG Config.defaultBoxes 0x27 0x30 ∧ (0x51 : Byte) = 0x76 ^^^ 0x27 := by decide
/-- The three cases: both flags, no key, a key and no block. -/
theorem witness_EncEqualsNineCommands :
    ((ready 0x1234).status.err = false ∧ (ready 0x1234).status.kv = true ∧ (ready 0x1234).status.sv = true) ∧
    (State.reset.status.err = false ∧ State.reset.status.kv = false) ∧
    (({ Status.reset with kv := true } : Status).kv = true ∧ ({ Status.reset with kv := true } : Status).sv = false) := by
  decide
theorem witness_DecEqualsNineCommands :
    ((readyHi 0x20B2).status.err = false ∧ (readyHi 0x20B2).status.kv = true ∧ (readyHi 0x20B2).status.sv = true) ∧
    (State.reset.status.err = false ∧ State.reset.status.kv = false) ∧
    (({ Status.reset with kv := true } : Status).kv = true ∧ ({ Status.reset with kv := true } : Status).sv = false) := by
  decide
theorem witness_AssemblerReadsWhatItPrints : (Instr.ldk 0xFFFF).wellFormed = true ∧ (Instr.ark 0).wellFormed = true := by
  decide
theorem witness_PseudoInstructionsExpand : disassemble 0x40002 = some "ARK 2".toList := by decide

end Sys2Proof.Tests
end

section
/-! PROOFS. The writes that commands and faults make to `STATUS` (10_state.md R15, R18; 60_exceptions.md R140). -/

namespace Sys2Proof.Machine

theorem FaultCode.ecode_ne_zero (c : FaultCode) : c.ecode ≠ 0 := by
  cases c <;> decide

theorem FaultCode.ecode_le_three (c : FaultCode) : c.ecode.toNat ≤ 3 := by
  cases c <;> decide

/-- Everything a command can do to `STATUS`: a fault, nothing, or the one write of R15 that belongs to it. -/
theorem exec_status_cases {i : Instr} {s t : State} (h : exec i s = .next t) :
    (∃ c, t = s.takeFault c) ∨ t.status = s.status ∨
    ((∃ k, i = .ldk k) ∧ t.status = s.status.keyLoaded) ∨
    ((∃ b, i = .lds b) ∧ t.status = s.status.blockLoaded) ∨
    ((i = .kexp ∨ i = .enc ∨ i = .dec) ∧ t.status = s.status.keysExpanded) ∨
    ((∃ a b, i = .gfmul a b) ∧ t.status = s.status.productWritten) := by
  rcases exec_next_cases h with hc | ⟨_, rfl⟩ | ⟨k, hi, rfl⟩ | ⟨b, hi, rfl⟩ | ⟨_, _, f, rfl⟩ | ⟨hi, _, rfl⟩ |
    ⟨hi, _, _, f, rfl⟩ | ⟨a, b, hi, rfl⟩
  · exact .inl hc
  · exact .inr (.inl rfl)
  · exact .inr (.inr (.inl ⟨⟨k, hi⟩, rfl⟩))
  · exact .inr (.inr (.inr (.inl ⟨⟨b, hi⟩, rfl⟩)))
  · exact .inr (.inl rfl)
  · exact .inr (.inr (.inr (.inr (.inl ⟨.inl hi, rfl⟩))))
  · exact .inr (.inr (.inr (.inr (.inl ⟨.inr hi, rfl⟩))))
  · exact .inr (.inr (.inr (.inr (.inr ⟨⟨a, b, hi⟩, rfl⟩))))

/-- With `STATUS` as reset leaves it, every command that reads a data register raises `EUNINIT` (R16, R21). -/
theorem exec_euninit_of_status_reset {t : State} (h : t.status = Status.reset) :
    ∀ i ∈ [Instr.kexp, .ark 0, .ark 1, .ark 2, .subnib, .isubnib, .shrow, .mixcol, .imixcol, .enc, .dec],
      exec i t = .next (t.takeFault .euninit) := by
  have guarded (v : Status → Bool) (hv : v Status.reset = false) (f : State → State) :
      requireValid (v t.status) f t = .next (t.takeFault .euninit) := requireValid_of_false (h ▸ hv) f t
  simp only [List.forall_mem_cons, exec, execEnc, execDec]
  exact ⟨guarded Status.kv rfl _, guarded (fun f => f.sv && f.rkv) rfl _, guarded (fun f => f.sv && f.rkv) rfl _,
    guarded (fun f => f.sv && f.rkv) rfl _, guarded Status.sv rfl _, guarded Status.sv rfl _,
    guarded Status.sv rfl _, guarded Status.sv rfl _, guarded Status.sv rfl _,
    guarded (fun f => f.kv && f.sv) rfl _, guarded (fun f => f.kv && f.sv) rfl _, List.forall_mem_nil _⟩

end Sys2Proof.Machine
end

section
/-! PROOFS. The statements about the state: what two cores a host cannot tell apart do (10_state.md R16, R22), the
invariant of R23, what a command does to the flags (R15, R18), and the ports. -/

namespace Sys2Proof.Safety

open Sys2Proof.Machine

/-! ### States that no port and no command can tell apart -/

/-- The hidden bits are those of a register whose valid flag is 0: everything else agrees. -/
theorem sameVisible_iff {s t : State} : SameVisible s t ↔
    (s.status = t.status ∧ (s.status.kv = true → s.key = t.key) ∧ (s.status.sv = true → s.st = t.st) ∧
    (s.status.rkv = true → s.rk = t.rk) ∧ (s.status.gv = true → s.gp = t.gp)) ∧ s.inputs = t.inputs :=
  and_congr_left' (State.ports_eq_iff s t)

theorem SameVisible.status {s t : State} (h : SameVisible s t) : s.status = t.status := by
  obtain ⟨⟨hf, _⟩, _⟩ := sameVisible_iff.mp h
  exact hf

theorem SameVisible.key {s t : State} (h : SameVisible s t) (hk : s.status.kv = true) : s.key = t.key := by
  obtain ⟨⟨_, hkey, _⟩, _⟩ := sameVisible_iff.mp h
  exact hkey hk

theorem SameVisible.rk {s t : State} (h : SameVisible s t) (hr : s.status.rkv = true) : s.rk = t.rk := by
  obtain ⟨⟨_, _, _, hrk, _⟩, _⟩ := sameVisible_iff.mp h
  exact hrk hr

theorem SameVisible.inputs {s t : State} (h : SameVisible s t) : s.inputs = t.inputs := h.2

theorem SameVisible.withInputs {s t : State} (h : SameVisible s t) (x : List Edge) :
    SameVisible { s with inputs := x } { t with inputs := x } :=
  ⟨h.1, rfl⟩

theorem SameVisible.takeReset {s t : State} (h : SameVisible s t) : SameVisible s.takeReset t.takeReset :=
  ⟨rfl, h.inputs⟩

theorem SameVisible.takeFault {s t : State} (h : SameVisible s t) (c : FaultCode) :
    SameVisible (s.takeFault c) (t.takeFault c) := by
  obtain ⟨⟨hf, hkey, hst, hrk, hgp⟩, hin⟩ := sameVisible_iff.mp h
  exact sameVisible_iff.mpr ⟨⟨congrArg (·.faulted c) hf, hkey, hst, hrk, hgp⟩, hin⟩

theorem SameVisible.loadKey {s t : State} (h : SameVisible s t) (k : Word) :
    SameVisible { s with key := k, status := s.status.keyLoaded } { t with key := k, status := t.status.keyLoaded } := by
  obtain ⟨⟨hf, _, hst, _, hgp⟩, hin⟩ := sameVisible_iff.mp h
  exact sameVisible_iff.mpr ⟨⟨congrArg Status.keyLoaded hf, fun _ => rfl, hst, nofun, hgp⟩, hin⟩

theorem SameVisible.loadBlock {s t : State} (h : SameVisible s t) (b : Word) :
    SameVisible { s with st := b, status := s.status.blockLoaded } { t with st := b, status := t.status.blockLoaded } := by
  obtain ⟨⟨hf, hkey, _, hrk, hgp⟩, hin⟩ := sameVisible_iff.mp h
  exact sameVisible_iff.mpr ⟨⟨congrArg Status.blockLoaded hf, hkey, fun _ => rfl, hrk, hgp⟩, hin⟩

theorem SameVisible.writeProduct {s t : State} (h : SameVisible s t) (p : Nibble) :
    SameVisible { s with gp := p, status := s.status.productWritten }
      { t with gp := p, status := t.status.productWritten } := by
  obtain ⟨⟨hf, hkey, hst, hrk, _⟩, hin⟩ := sameVisible_iff.mp h
  exact sameVisible_iff.mpr ⟨⟨congrArg Status.productWritten hf, hkey, hst, hrk, fun _ => rfl⟩, hin⟩

theorem SameVisible.mapSt {s t : State} (h : SameVisible s t) (f : Word → Word) :
    SameVisible (s.mapSt f) (t.mapSt f) := by
  obtain ⟨⟨hf, hkey, hst, hrk, hgp⟩, hin⟩ := sameVisible_iff.mp h
  exact sameVisible_iff.mpr ⟨⟨hf, hkey, fun hv => congrArg f (hst hv), hrk, hgp⟩, hin⟩

theorem SameVisible.writeRoundKeys {s t : State} (h : SameVisible s t) (rk : RoundKeys) :
    SameVisible (s.writeRoundKeys rk) (t.writeRoundKeys rk) := by
  obtain ⟨⟨hf, hkey, hst, _, hgp⟩, hin⟩ := sameVisible_iff.mp h
  exact sameVisible_iff.mpr ⟨⟨congrArg Status.keysExpanded hf, hkey, hst, fun _ => rfl, hgp⟩, hin⟩

/-- Two outcomes that both go on, in states that cannot be told apart: what each operation gives from two such states. -/
def SameOutcome (o o' : Outcome) : Prop :=
  ∃ s t, o = .next s ∧ o' = .next t ∧ SameVisible s t

theorem SameVisible.next {s t : State} (h : SameVisible s t) : SameOutcome (.next s) (.next t) :=
  ⟨s, t, rfl, rfl, h⟩

theorem SameOutcome.andThen {o o' : Outcome} {f g : State → Outcome} (h : SameOutcome o o')
    (hfg : ∀ s t, SameVisible s t → SameOutcome (f s) (g t)) : SameOutcome (andThen o f) (andThen o' g) := by
  obtain ⟨s, t, rfl, rfl, hst⟩ := h
  exact hfg s t hst

/-- The guard hides the bits: the effect is reached only where the flags are 1, so it need only agree there. -/
theorem requireValid_sameOutcome {s t : State} (h : SameVisible s t) (v : Status → Bool) {f g : State → State}
    (hfg : v s.status = true → SameVisible (f s) (g t)) :
    SameOutcome (requireValid (v s.status) f s) (requireValid (v t.status) g t) := by
  rw [← h.status]
  cases hv : v s.status with
  | true => exact (hfg hv).next
  | false => exact (h.takeFault .euninit).next

/-- A round key that is not valid is named by the same indices and never reaches `ST`. -/
theorem execArk_sameOutcome {s t : State} (h : SameVisible s t) (n : BitVec 2) :
    SameOutcome (execArk n s) (execArk n t) := by
  cases hs : s.rk.get? n with
  | none =>
    obtain rfl := (RoundKeys.get?_eq_none_iff _ _).mp hs
    exact (h.takeFault .efield).next
  | some k =>
    obtain ⟨k', ht⟩ : ∃ k', t.rk.get? n = some k' := by
      rw [← Option.ne_none_iff_exists', Ne, RoundKeys.get?_eq_none_iff, ← s.rk.get?_eq_none_iff, hs]
      nofun
    rw [execArk_of_some hs, execArk_of_some ht]
    refine requireValid_sameOutcome h (fun f => f.sv && f.rkv) fun hv => ?_
    have hrk : s.rk = t.rk := h.rk (by simp_all)
    have hk : k = k' := by simpa [hrk, ht] using hs.symm
    exact hk ▸ h.mapSt _

/-- No command tells two states apart that agree on what is visible. -/
theorem exec_sameOutcome {s t : State} (h : SameVisible s t) (i : Instr) : SameOutcome (exec i s) (exec i t) := by
  have round (f : Word → Word) : SameOutcome (requireValid s.status.sv (State.mapSt f) s)
      (requireValid t.status.sv (State.mapSt f) t) :=
    requireValid_sameOutcome h Status.sv fun _ => h.mapSt f
  cases i with
  | nop => exact h.next
  | ldk k => exact (h.loadKey k).next
  | lds b => exact (h.loadBlock b).next
  | gfmul a b => exact (h.writeProduct _).next
  | subnib | isubnib | shrow | mixcol | imixcol => exact round _
  | ark n => exact execArk_sameOutcome h n
  | kexp =>
    refine requireValid_sameOutcome h Status.kv fun hk => ?_
    rw [h.key hk]
    exact h.writeRoundKeys _
  | enc | dec =>
    simp only [exec, execEnc, execDec]
    refine requireValid_sameOutcome h (fun f => f.kv && f.sv) fun hv => ?_
    rw [h.key (by simp_all)]
    exact (h.mapSt _).writeRoundKeys _

theorem stepWord_sameOutcome {s t : State} (h : SameVisible s t) (w : CmdWord) :
    SameOutcome (stepWord w s) (stepWord w t) := by
  cases he : s.status.err with
  | true =>
    rw [stepWord_of_err he, stepWord_of_err (h.status ▸ he)]
    exact h.next
  | false =>
    have he' : t.status.err = false := h.status ▸ he
    cases hd : decode w with
    | command i =>
      rw [stepWord_of_command he hd, stepWord_of_command he' hd]
      exact exec_sameOutcome h i
    | rejected r =>
      rw [stepWord_of_rejected he hd, stepWord_of_rejected he' hd]
      exact (h.takeFault _).next

theorem clockEdge_sameOutcome {s t : State} (h : SameVisible s t) (e : Edge) :
    SameOutcome (clockEdge e s) (clockEdge e t) := by
  cases hr : e.rst with
  | true =>
    rw [clockEdge_of_rst hr, clockEdge_of_rst hr]
    exact h.takeReset.next
  | false =>
    cases hv : e.cmdValid with
    | true =>
      rw [clockEdge_of_command hr hv, clockEdge_of_command hr hv]
      exact stepWord_sameOutcome h e.cmd
    | false =>
      rw [clockEdge_of_idle hr hv, clockEdge_of_idle hr hv]
      exact h.next

theorem step_sameOutcome {s t : State} (h : SameVisible s t) : SameOutcome (step s) (step t) := by
  cases hi : s.inputs with
  | nil =>
    rw [step_of_no_inputs hi, step_of_no_inputs (h.inputs ▸ hi)]
    exact h.next
  | cons e rest =>
    rw [step_of_edge hi, step_of_edge (h.inputs ▸ hi)]
    exact clockEdge_sameOutcome (h.withInputs rest) e

theorem core_run_sameOutcome (n : Nat) :
    ∀ s t : State, SameVisible s t → SameOutcome (core.run n s) (core.run n t) := by
  induction n with
  | zero => exact fun _ _ h => h.next
  | succ n ih =>
    intro s t h
    rw [core_run_succ, core_run_succ]
    exact (step_sameOutcome h).andThen ih

/-- Settles O16: visible equality is a simulation, kept by every step and so, by induction on their number, by a run. -/
theorem hiddenBitsAreNeverObservable : Obligations.HiddenBitsAreNeverObservable := by
  intro n s t s' t' h hs ht
  obtain ⟨u, v, hu, hv, huv⟩ := core_run_sameOutcome n s t h
  cases hs.symm.trans hu
  cases ht.symm.trans hv
  exact huv

/-! ### The invariant of R23 -/

theorem Inv.of_status_reset {s : State} (h : s.status = Status.reset) : Inv s := by
  constructor <;> simp [h]

theorem Inv.withInputs {s : State} (h : Inv s) (x : List Edge) : Inv { s with inputs := x } :=
  ⟨h.keyed, h.expanded, h.coded, h.small⟩

theorem Inv.mapSt {s : State} (h : Inv s) (f : Word → Word) : Inv (s.mapSt f) :=
  ⟨h.keyed, h.expanded, h.coded, h.small⟩

theorem Inv.loadBlock {s : State} (h : Inv s) (b : Word) : Inv { s with st := b, status := s.status.blockLoaded } :=
  ⟨h.keyed, h.expanded, h.coded, h.small⟩

theorem Inv.writeProduct {s : State} (h : Inv s) (p : Nibble) :
    Inv { s with gp := p, status := s.status.productWritten } :=
  ⟨h.keyed, h.expanded, h.coded, h.small⟩

theorem Inv.takeFault {s : State} (h : Inv s) (c : FaultCode) : Inv (s.takeFault c) where
  keyed := h.keyed
  expanded := h.expanded
  coded := iff_of_false nofun c.ecode_ne_zero
  small := c.ecode_le_three

/-- A new key makes the round keys stale, and `RKV` is cleared with it. -/
theorem Inv.loadKey {s : State} (h : Inv s) (k : Word) :
    Inv { s with key := k, status := s.status.keyLoaded } where
  keyed := nofun
  expanded := nofun
  coded := h.coded
  small := h.small

/-- `RKV` is set only with the expansion of a valid `KEY`. -/
theorem Inv.expandKey {s : State} (h : Inv s) (hk : s.status.kv = true) :
    Inv (s.writeRoundKeys (keyExpansion Config.boxes s.key)) where
  keyed := fun _ => hk
  expanded := fun _ => rfl
  coded := h.coded
  small := h.small

theorem exec_keeps_inv {i : Instr} {s t : State} (hs : Inv s) (h : exec i s = .next t) : Inv t := by
  rcases exec_next_cases h with ⟨c, rfl⟩ | ⟨_, rfl⟩ | ⟨k, _, rfl⟩ | ⟨b, _, rfl⟩ | ⟨_, _, f, rfl⟩ | ⟨_, hk, rfl⟩ |
    ⟨_, hk, _, f, rfl⟩ | ⟨_, _, _, rfl⟩
  · exact hs.takeFault c
  · exact hs
  · exact hs.loadKey k
  · exact hs.loadBlock b
  · exact hs.mapSt f
  · exact hs.expandKey hk
  · exact (hs.mapSt f).expandKey hk
  · exact hs.writeProduct _

theorem stepWord_keeps_inv {w : CmdWord} {s t : State} (hs : Inv s) (h : stepWord w s = .next t) : Inv t := by
  rcases stepWord_next_cases h with ⟨_, rfl⟩ | ⟨_, c, rfl⟩ | ⟨_, i, _, hx⟩
  · exact hs
  · exact hs.takeFault c
  · exact exec_keeps_inv hs hx

/-- Settles O17, by what a step can do: nothing, reset, an idle edge, or a command word. -/
theorem stepKeepsInvariant : Obligations.StepKeepsInvariant := by
  intro s t hs h
  rcases step_next_cases h with ⟨_, rfl⟩ | ⟨e, rest, _, ⟨_, rfl⟩ | ⟨_, _, rfl⟩ | ⟨_, _, hw⟩⟩
  · exact hs
  · exact .of_status_reset rfl
  · exact hs.withInputs rest
  · exact stepWord_keeps_inv (hs.withInputs rest) hw

/-- Settles O18: `STATUS` is 0x00 after reset. -/
theorem resetMeetsInvariant : Obligations.ResetMeetsInvariant :=
  .of_status_reset rfl

/-- Settles O19: reset meets the invariant, with any moves of the host to come, and every step keeps it. -/
theorem reachableStatesMeetInvariant : Obligations.ReachableStatesMeetInvariant := by
  intro n moves t h
  exact core_run_keeps stepKeepsInvariant n _ t (resetMeetsInvariant.withInputs moves) h

/-! ### The flags and the ports -/

/-- Settles O14, by the write to `STATUS` that each command can make. -/
theorem flagsChangeOnlyAsListed : Obligations.FlagsChangeOnlyAsListed := by
  intro i s t h
  rcases exec_status_cases h with ⟨c, rfl⟩ | hf | ⟨hi, hf⟩ | ⟨hi, hf⟩ | ⟨hi, hf⟩ | ⟨hi, hf⟩
  case inl =>
    have hc : ∃ c', s.takeFault c = s.takeFault c' := ⟨c, rfl⟩
    simp +contextual [hc]
  all_goals simp +contextual [hf, hi]

/-- Settles O13: the fields are read back from the byte. -/
theorem statusFieldPlaces : Obligations.StatusFieldPlaces := by
  intro f
  have h := f.eq_fields_of_toByte
  exact ⟨congrArg Status.kv h.symm, congrArg Status.sv h.symm, congrArg Status.rkv h.symm,
    congrArg Status.gv h.symm, congrArg Status.err h.symm, congrArg Status.ecode h.symm⟩

/-- Settles O15: each data port tests its register's valid flag, and no port tests any other. -/
theorem portsShowValidRegisters : Obligations.PortsShowValidRegisters := by
  intro s
  refine ⟨?_, ?_, ?_, ?_, ?_, ?_, ?_, ?_, rfl⟩ <;> intro h <;> simp [State.ports, h]

/-- Settles O12: the ports and the guards read flags that are all 0 (R21). -/
theorem resetValues : Obligations.ResetValues :=
  ⟨rfl, rfl, rfl, rfl, exec_euninit_of_status_reset rfl⟩

end Sys2Proof.Safety
end

section
/-! PROOFS. The run of a list of command words (20_memory.md R36; 70_reset_and_hazards.md R164). -/

namespace Sys2Proof.Machine

/-- No word takes or adds a move of the host. -/
theorem stepWord_inputs {w : CmdWord} {s t : State} (h : stepWord w s = .next t) : t.inputs = s.inputs := by
  rcases stepWord_next_cases h with ⟨_, rfl⟩ | ⟨_, c, rfl⟩ | ⟨_, i, _, hx⟩
  · rfl
  · exact s.takeFault_inputs c
  · exact exec_inputs hx

/-- The step at an edge that presents `w` takes that edge and does what `w` does, whatever comes after it. -/
theorem step_of_presentWord {w : CmdWord} {s t : State} (h : stepWord w s = .next t) (rest : List Edge) :
    step { s with inputs := presentWord w :: rest } = .next { t with inputs := rest } := by
  rw [step_of_edge rfl, clockEdge_presentWord, ← stepWord_with_inputs rest h]

end Sys2Proof.Machine

namespace Sys2Proof.Safety

open Sys2Proof.Machine

@[simp] theorem runWords_nil (s : State) : runWords [] s = .next s := rfl

theorem runWords_cons (w : CmdWord) (ws : List CmdWord) (s : State) :
    runWords (w :: ws) s = andThen (stepWord w s) (runWords ws) := by
  obtain ⟨t, ht⟩ := stepWord_answers_next w s
  simp [runWords, ht]

/-- Every list of words answers a next state, from every state. -/
theorem runWords_answers_next (ws : List CmdWord) : ∀ s : State, ∃ t, runWords ws s = .next t := by
  induction ws with
  | nil => exact fun s => ⟨s, rfl⟩
  | cons w ws ih =>
    intro s
    obtain ⟨t, ht⟩ := stepWord_answers_next w s
    rw [runWords_cons, ht]
    exact ih t

/-- The words presented first are taken one per step, and the host's own moves are left for later. -/
theorem core_run_presentWords (ws : List CmdWord) : ∀ s : State,
    core.run ws.length { s with inputs := ws.map presentWord ++ s.inputs } = runWords ws s := by
  induction ws with
  | nil => exact fun _ => rfl
  | cons w ws ih =>
    intro s
    obtain ⟨t, ht⟩ := stepWord_answers_next w s
    have hstep : step { s with inputs := (w :: ws).map presentWord ++ s.inputs } =
        .next { t with inputs := ws.map presentWord ++ t.inputs } := by
      rw [stepWord_inputs ht]
      exact step_of_presentWord ht _
    rw [List.length_cons, core_run_succ, hstep, runWords_cons, ht]
    exact ih t

/-- Settles O22, by induction on the list: one step per presented word, and each answers a next state. -/
theorem runIsFoldOfStep : Obligations.RunIsFoldOfStep :=
  fun ws s => ⟨core_run_presentWords ws s, runWords_answers_next ws s⟩

end Sys2Proof.Safety
end

section
/-! PROOFS. Encoding and decoding of command words (30_encoding.md R40 to R46): the round trip, the opcode map, the
count. -/

namespace Sys2Proof

/-! ### The round trip -/

/-- A field check answers only the command it is given, and only with a legal operand field. -/
theorem fields_of_checkFields {f : Format} {imm : Word} {i j : Instr} (h : checkFields f imm j = .command i)
    (hj : fieldsLegal f imm = true → j.wellFormed = true ∧ j.immediate = imm) :
    i.wellFormed = true ∧ i.opcode = j.opcode ∧ i.immediate = imm := by
  obtain ⟨hl, rfl⟩ := checkFields_eq_command.mp h
  obtain ⟨hwf, himm⟩ := hj hl
  exact ⟨hwf, rfl, himm⟩

/-- What the decoder answers has the opcode and the operand field it was given (R41 to R46). -/
theorem decodeFields_eq_command {op : Nibble} {imm : Word} {i : Instr} (h : decodeFields op imm = .command i) :
    i.wellFormed = true ∧ i.opcode = op ∧ i.immediate = imm := by
  have z (hl : fieldsLegal .z imm = true) : true = true ∧ 0 = imm := ⟨rfl, (beq_iff_eq.mp hl).symm⟩
  have w (_ : fieldsLegal .i imm = true) : true = true ∧ imm = imm := ⟨rfl, rfl⟩
  have n (hl : fieldsLegal .n imm = true) :
      (Instr.ark (nField imm)).wellFormed = true ∧ 0#14 ++ nField imm = imm := by
    obtain ⟨hz, hn⟩ := Bool.and_eq_true_iff.mp hl
    exact ⟨hn, ark_immediate (beq_iff_eq.mp hz)⟩
  have g (hl : fieldsLegal .g imm = true) : true = true ∧ 0#8 ++ aField imm ++ bField imm = imm :=
    ⟨rfl, gfmul_immediate (beq_iff_eq.mp hl)⟩
  rcases nibble_cases op with rfl | rfl | rfl | rfl | rfl | rfl | rfl | rfl | rfl | rfl | rfl | rfl | rfl | rfl | rfl |
    rfl
  exacts [fields_of_checkFields h z, fields_of_checkFields h w, fields_of_checkFields h w,
    fields_of_checkFields h z, fields_of_checkFields h n, fields_of_checkFields h z, fields_of_checkFields h z,
    fields_of_checkFields h z, fields_of_checkFields h z, fields_of_checkFields h z, fields_of_checkFields h z,
    fields_of_checkFields h z, fields_of_checkFields h g, (nomatch h), (nomatch h), (nomatch h)]

/-- The operand field the encoder gives a well-formed command decodes, under its opcode, to the command. -/
theorem decodeFields_opcode_immediate {i : Instr} (h : i.wellFormed = true) :
    decodeFields i.opcode i.immediate = .command i := by
  cases i with
  | ldk | lds => rfl
  | ark n =>
    have hl : fieldsLegal .n (0#14 ++ n) = true := by
      revert h
      decide +revert
    exact (checkFields_of_legal hl _).trans (by simp [Instr.immediate])
  | gfmul a b =>
    have hl : fieldsLegal .g (0#8 ++ a ++ b) = true := by decide +revert
    exact (checkFields_of_legal hl _).trans (by simp [Instr.immediate])
  | nop | kexp | subnib | isubnib | shrow | mixcol | imixcol | enc | dec => exact checkFields_of_legal rfl _

/-- Settles O1: the fields of an encoded word are the command's opcode and operand field. -/
theorem decodeInvertsEncode : Obligations.DecodeInvertsEncode := by
  intro i h
  rw [decode, opField_encode, immField_encode, decodeFields_opcode_immediate h]

/-- Settles O2: a word is its two fields, and the decoder fixes both. -/
theorem encodeInvertsDecode : Obligations.EncodeInvertsDecode := by
  intro w i h
  obtain ⟨hwf, hop, himm⟩ := decodeFields_eq_command h
  exact ⟨hwf, by rw [encode, hop, himm, opField_append_immField]⟩

/-- Settles O3: the words of 95_test_vectors.md section 2.1, decoded. -/
theorem specWordsDecode : Obligations.SpecWordsDecode := by
  unfold Obligations.SpecWordsDecode
  decide

/-- Index 3 is reserved: its word spells no command (R46). -/
theorem decode_index_three : decode 0x40003 = .rejected .efield := by decide

/-! ### The opcode map -/

/-- A row's mask keeps the whole opcode, its pattern has a zero operand field, and no two rows have one opcode. -/
theorem opcodeMap_rows : ∀ r ∈ opcodeMap, opField r.mask = 0xF ∧ immField r.pattern = 0 ∧
    ∀ r' ∈ opcodeMap, opField r.pattern = opField r'.pattern → r = r' := by
  decide

theorem opField_and (w v : CmdWord) : opField (w &&& v) = opField w &&& opField v :=
  BitVec.extractLsb'_and

theorem immField_and (w v : CmdWord) : immField (w &&& v) = immField w &&& immField v :=
  BitVec.extractLsb'_and

/-- A word that matches a row has the row's opcode, and zeros in the row's reserved bits (R44). -/
theorem fields_of_row_matches {w : CmdWord} {r : OpcodeRow} (hr : r ∈ opcodeMap) (h : w &&& r.mask = r.pattern) :
    opField w = opField r.pattern ∧ immField w &&& immField r.mask = 0 := by
  obtain ⟨hmask, hpat, _⟩ := opcodeMap_rows r hr
  constructor
  · have hall : opField w &&& 0xF = opField w := BitVec.and_allOnes
    rw [← h, opField_and, hmask, hall]
  · rw [← immField_and, h, hpat]

/-- A row with a legal operand field spells a command. -/
theorem decodeFields_of_row {r : OpcodeRow} (hr : r ∈ opcodeMap) {imm : Word} (h : fieldsLegal r.format imm = true) :
    ∃ i, decodeFields (opField r.pattern) imm = .command i := by
  revert r
  simp only [opcodeMap, List.cons_append, List.nil_append, List.forall_mem_cons]
  refine ⟨?_, ?_, ?_, ?_, ?_, ?_, ?_, ?_, ?_, ?_, ?_, ?_, ?_, nofun⟩ <;>
    exact fun h => ⟨_, checkFields_of_legal h _⟩

/-- The reserved bits of each format, as the rows' masks have them, and the one opcode of format N (R41, R44). -/
theorem opcodeMap_masks : ∀ r ∈ opcodeMap, (r.format = .z ∧ immField r.mask = 0xFFFF) ∨ r.format = .i ∨
    (r.format = .n ∧ immField r.mask = 0xFFFC ∧ opField r.pattern = 4) ∨
    (r.format = .g ∧ immField r.mask = 0xFF00) := by
  decide

/-- Bits that a mask keeps are zero where the masked value is. -/
theorem extractLsb'_eq_zero_of_and {imm m : Word} {start len : Nat} (h : imm &&& m = 0)
    (hm : m.extractLsb' start len = BitVec.allOnes len) : imm.extractLsb' start len = 0 := by
  have hx := congrArg (BitVec.extractLsb' start len) h
  rw [BitVec.extractLsb'_and, hm, BitVec.and_allOnes] at hx
  simpa using hx

/-- Where a row's reserved bits are zero the operand field is legal, but for the index 3 of `ARK` (R41, R46). -/
theorem fieldsLegal_of_row {r : OpcodeRow} (hr : r ∈ opcodeMap) {imm : Word} (h : imm &&& immField r.mask = 0)
    (h3 : ¬ (opField r.pattern = 4 ∧ imm = 3)) : fieldsLegal r.format imm = true := by
  rcases opcodeMap_masks r hr with ⟨hf, hmask⟩ | hf | ⟨hf, hmask, hop⟩ | ⟨hf, hmask⟩ <;> rw [hf]
  · have hall : imm &&& 0xFFFF = imm := BitVec.and_allOnes
    rw [hmask, hall] at h
    simp [h]
  · rfl
  · rw [hmask] at h
    have hz : imm.extractLsb' 2 14 = 0 := extractLsb'_eq_zero_of_and h (by decide)
    have hn : ¬ nField imm = 3#2 := by
      intro hn
      have himm := ark_immediate hz
      rw [hn] at himm
      exact h3 ⟨hop, himm.symm⟩
    simp [hz, hn]
  · rw [hmask] at h
    exact beq_iff_eq.mpr (extractLsb'_eq_zero_of_and h (by decide))

/-- The word of every command matches the command's own row, which is a row of the map (R44). -/
theorem encode_matches_row (i : Instr) : Laws.RowOfWord.Statement i := by
  cases i with
  | nop => exact Laws.RowOfWord.nop
  | ldk k => exact Laws.RowOfWord.ldk k
  | lds b => exact Laws.RowOfWord.lds b
  | kexp => exact Laws.RowOfWord.kexp
  | ark n => exact Laws.RowOfWord.ark n
  | subnib => exact Laws.RowOfWord.subnib
  | isubnib => exact Laws.RowOfWord.isubnib
  | shrow => exact Laws.RowOfWord.shrow
  | mixcol => exact Laws.RowOfWord.mixcol
  | imixcol => exact Laws.RowOfWord.imixcol
  | enc => exact Laws.RowOfWord.enc
  | dec => exact Laws.RowOfWord.dec
  | gfmul a b => exact Laws.RowOfWord.gfmul a b

/-- A word that decodes matches the row of its command (R44). -/
theorem row_of_decode {w : CmdWord} {i : Instr} (h : decode w = .command i) :
    i.row ∈ opcodeMap ∧ w &&& i.row.mask = i.row.pattern := by
  obtain ⟨_, rfl⟩ := encodeInvertsDecode w i h
  exact encode_matches_row i

/-- A word other than 0x40003 that matches a row decodes to a command. -/
theorem decode_of_row_matches {w : CmdWord} {r : OpcodeRow} (hw : w ≠ 0x40003) (hr : r ∈ opcodeMap)
    (h : w &&& r.mask = r.pattern) : ∃ i, decode w = .command i := by
  obtain ⟨hop, himm⟩ := fields_of_row_matches hr h
  rw [decode, hop]
  refine decodeFields_of_row hr (fieldsLegal_of_row hr himm ?_)
  rintro ⟨h4, h3⟩
  exact hw (cmdWord_ext (hop.trans h4) h3)

/-- Settles O4: a row is an opcode and its reserved bits, which are what the decoder looks at. -/
theorem decodeFollowsOpcodeMap : Obligations.DecodeFollowsOpcodeMap := by
  refine ⟨fun w => ⟨?_, fun ⟨hw, r, hr, h⟩ => decode_of_row_matches hw hr h⟩, fun w i => row_of_decode, ?_⟩
  · rintro ⟨i, hi⟩
    refine ⟨?_, i.row, row_of_decode hi⟩
    rintro rfl
    exact Decoded.noConfusion (decode_index_three.symm.trans hi)
  · intro w r hr r' hr' h h'
    obtain ⟨_, _, hinj⟩ := opcodeMap_rows r hr
    exact hinj r' hr' ((fields_of_row_matches hr h).1.symm.trans (fields_of_row_matches hr' h').1)

/-! ### The count -/

/-- How many operand fields are legal in a format (R41, R42, R46). -/
def Format.legalCount : Format → Nat
  | .z => 1
  | .i => 65536
  | .n => 3
  | .g => 256

/-- How many operand fields are legal under an opcode, by its row of the map; none where there is no row (R44, R45). -/
def legalFields (op : Nat) : Nat := (opcodeMap[op]?.map (·.format.legalCount)).getD 0

/-- In each format the legal operand fields are, as numbers, the first ones. -/
theorem fieldsLegal_iff (f : Format) (imm : Word) : fieldsLegal f imm = true ↔ imm.toNat < f.legalCount := by
  cases f with
  | i => exact iff_of_true rfl imm.isLt
  | z =>
    rw [fieldsLegal_z, beq_iff_eq, ← BitVec.toNat_inj]
    exact Nat.lt_one_iff.symm
  | n =>
    simp only [fieldsLegal_n, Bool.and_eq_true, beq_iff_eq, bne_iff_ne, ne_eq, nField, ← BitVec.toNat_inj,
      BitVec.extractLsb'_toNat, BitVec.ofNat_eq_ofNat, BitVec.toNat_ofNat, Nat.shiftRight_eq_div_pow, Format.legalCount]
    omega
  | g =>
    simp only [fieldsLegal_g, beq_iff_eq, ← BitVec.toNat_inj, BitVec.extractLsb'_toNat, BitVec.ofNat_eq_ofNat,
      BitVec.toNat_ofNat, Nat.shiftRight_eq_div_pow, Format.legalCount]
    omega

theorem checkFields_isSome_iff (f : Format) (imm : Word) (i : Instr) :
    (checkFields f imm i).command?.isSome = true ↔ imm.toNat < f.legalCount := by
  rw [← fieldsLegal_iff]
  cases hl : fieldsLegal f imm with
  | true => simp [checkFields_of_legal hl, Decoded.command?]
  | false => simp [checkFields_of_illegal hl, Decoded.command?]

/-- Under each opcode the operand fields that spell a command are, as numbers, the first ones (R43). -/
theorem decodeFields_isSome_iff (op : Nibble) (imm : Word) :
    (decodeFields op imm).command?.isSome = true ↔ imm.toNat < legalFields op.toNat := by
  rcases nibble_cases op with rfl | rfl | rfl | rfl | rfl | rfl | rfl | rfl | rfl | rfl | rfl | rfl | rfl | rfl | rfl |
    rfl
  iterate 13 exact checkFields_isSome_iff _ imm _
  all_goals exact iff_of_false nofun (Nat.not_lt_zero _)

/-- The number `n` is a word that spells a command (R43). -/
abbrev SpellsCommand (n : Nat) : Prop := (decode (BitVec.ofNat 20 n)).command?.isSome = true

/-- A word as a number is its opcode times 65536 plus its operand field (R40). -/
theorem spellsCommand_iff {op imm : Nat} (hop : op < 16) (himm : imm < 65536) :
    SpellsCommand (65536 * op + imm) ↔ imm < legalFields op := by
  have ho : opField (BitVec.ofNat 20 (65536 * op + imm)) = BitVec.ofNat 4 op := by
    simp only [opField, ← BitVec.toNat_inj, BitVec.extractLsb'_toNat, BitVec.toNat_ofNat, Nat.shiftRight_eq_div_pow]
    omega
  have hi : immField (BitVec.ofNat 20 (65536 * op + imm)) = BitVec.ofNat 16 imm := by
    simp only [immField, ← BitVec.toNat_inj, BitVec.extractLsb'_toNat, BitVec.toNat_ofNat, Nat.shiftRight_eq_div_pow]
    omega
  rw [SpellsCommand, decode, ho, hi, decodeFields_isSome_iff, BitVec.toNat_ofNat, BitVec.toNat_ofNat,
    Nat.mod_eq_of_lt hop, Nat.mod_eq_of_lt himm]

/-- A property of the first `c` numbers and no others below `n` counts `c`. -/
theorem count_eq_of_iff_lt {p : Nat → Prop} [DecidablePred p] {c n : Nat} (hc : c ≤ n)
    (h : ∀ k < n, p k ↔ k < c) : Nat.count p n = c := by
  obtain ⟨d, rfl⟩ := Nat.exists_eq_add_of_le hc
  have hin : Nat.count p c = c := Nat.count_of_forall fun k hk => (h k (by omega)).mpr hk
  have hout : Nat.count (fun k => p (c + k)) d = 0 :=
    Nat.count_of_forall_not fun k hk hp => absurd ((h (c + k) (by omega)).mp hp) (by omega)
  rw [Nat.count_add, hin, hout, Nat.add_zero]

theorem legalFields_le (op : Nat) : legalFields op ≤ 65536 := by
  have h : ∀ f : Format, f.legalCount ≤ 65536 := by
    rintro (_ | _ | _ | _) <;> decide
  unfold legalFields
  cases opcodeMap[op]? with
  | none => exact Nat.zero_le _
  | some r => exact h r.format

/-- The words under one opcode that spell a command. -/
theorem count_opcode {op : Nat} (hop : op < 16) :
    Nat.count (fun imm => SpellsCommand (65536 * op + imm)) 65536 = legalFields op :=
  count_eq_of_iff_lt (legalFields_le op) fun _ => spellsCommand_iff hop

/-- The words below opcode `m` that spell a command, opcode by opcode. -/
theorem count_opcodes {m : Nat} (hm : m ≤ 16) :
    Nat.count SpellsCommand (65536 * m) = ∑ op ∈ Finset.range m, legalFields op := by
  induction m with
  | zero => rfl
  | succ m ih => rw [Nat.mul_succ, Nat.count_add, ih (by omega), count_opcode (by omega), Finset.sum_range_succ]

theorem count_words : Nat.count SpellsCommand (65536 * 16) = 131340 :=
  calc Nat.count SpellsCommand (65536 * 16)
    _ = ∑ op ∈ Finset.range 16, legalFields op := count_opcodes (m := 16) le_rfl
    _ = 131340 := by decide

/-- The count of a Boolean test and of its opposite on the numbers below `N`, in the list's terms. -/
theorem countP_range_of_count {p q : Nat → Bool} (hq : ∀ n, q n = !p n) {N c : Nat}
    (h : Nat.count (p · = true) N = c) : (List.range N).countP p = c ∧ (List.range N).countP q = N - c := by
  have hp : (List.range N).countP p = c := by simpa [Nat.count] using h
  have hlen := List.length_eq_countP_add_countP p (l := List.range N)
  have hnot : (fun n => decide ¬p n = true) = q := by
    funext n
    simp [hq]
  rw [hnot, hp, List.length_range] at hlen
  exact ⟨hp, by omega⟩

/-- Settles O5: the legal operand fields of the sixteen opcodes, added up. -/
theorem commandWordCount : Obligations.CommandWordCount :=
  countP_range_of_count (fun _ => (Option.not_isSome _).symm) count_words

end Sys2Proof
end

section
/-! PROOFS. The assembler and the disassembler (30_encoding.md R49, R50): the text printed for a command is read back,
part by part, and no text printed names a pseudo-instruction. -/

namespace Sys2Proof.Machine

/-! ### Texts that the assembler does not cut -/

/-- A character that is not white space, starts no comment and separates no operands (R49). -/
def isTokenChar (ch : Char) : Bool := !isBlank ch && ch != ',' && ch != ';'

/-- A text that stands as one part of a line: a mnemonic or an operand. -/
def isToken (t : List Char) : Bool := !t.isEmpty && t.all isTokenChar

/-- A text that neither begins nor ends with white space. -/
def Trimmed (t : List Char) : Prop :=
  (∃ ch u, t = ch :: u ∧ isBlank ch = false) ∧ ∃ u ch, t = u ++ [ch] ∧ isBlank ch = false

theorem isTokenChar_iff {ch : Char} : isTokenChar ch = true ↔ isBlank ch = false ∧ ch ≠ ',' ∧ ch ≠ ';' := by
  simp [isTokenChar, and_assoc]

theorem isToken_iff {t : List Char} : isToken t = true ↔ t ≠ [] ∧ ∀ ch ∈ t, isTokenChar ch = true := by
  simp [isToken]

theorem ne_comma_of_isToken {t : List Char} (h : isToken t = true) : ∀ ch ∈ t, ch ≠ ',' :=
  fun ch hch => (isTokenChar_iff.mp ((isToken_iff.mp h).2 ch hch)).2.1

theorem ne_semicolon_of_isToken {t : List Char} (h : isToken t = true) : ∀ ch ∈ t, ch ≠ ';' :=
  fun ch hch => (isTokenChar_iff.mp ((isToken_iff.mp h).2 ch hch)).2.2

theorem not_isBlank_of_isToken {t : List Char} (h : isToken t = true) : ∀ ch ∈ t, isBlank ch = false :=
  fun ch hch => (isTokenChar_iff.mp ((isToken_iff.mp h).2 ch hch)).1

theorem Trimmed.of_isToken {t : List Char} (h : isToken t = true) : Trimmed t := by
  have hne := (isToken_iff.mp h).1
  have hb := not_isBlank_of_isToken h
  exact ⟨⟨t.head hne, t.tail, (List.cons_head_tail hne).symm, hb _ (t.head_mem hne)⟩,
    ⟨t.dropLast, t.getLast hne, (List.dropLast_append_getLast hne).symm, hb _ (t.getLast_mem hne)⟩⟩

theorem Trimmed.between {t v : List Char} (ht : Trimmed t) (u : List Char) (hv : Trimmed v) :
    Trimmed (t ++ u ++ v) := by
  obtain ⟨⟨ch, t', rfl, hch⟩, _⟩ := ht
  obtain ⟨_, v', ch', rfl, hch'⟩ := hv
  exact ⟨⟨ch, t' ++ u ++ (v' ++ [ch']), by simp, hch⟩, ⟨ch :: t' ++ u ++ v', ch', by simp, hch'⟩⟩

theorem Trimmed.trimBlank {t : List Char} (h : Trimmed t) : trimBlank t = t := by
  obtain ⟨⟨ch, u, hu, hch⟩, v, ch', hv, hch'⟩ := h
  have hfront : t.dropWhile isBlank = t := by rw [hu, List.dropWhile_cons_of_neg (by simp [hch])]
  have hback : t.reverse.dropWhile isBlank = t.reverse := by
    rw [hv, List.reverse_append, List.reverse_singleton, List.singleton_append,
      List.dropWhile_cons_of_neg (by simp [hch'])]
  rw [Machine.trimBlank, hfront, hback, List.reverse_reverse]

theorem trimBlank_space (t : List Char) : trimBlank (' ' :: t) = trimBlank t := rfl

theorem splitCommas_of_no_comma {t : List Char} (h : ∀ ch ∈ t, ch ≠ ',') : splitCommas t = [t] := by
  induction t with
  | nil => rfl
  | cons ch t ih =>
    obtain ⟨hch, ht⟩ := List.forall_mem_cons.mp h
    have ht' := ih ht
    simp_all [splitCommas]

theorem splitCommas_append_comma {t : List Char} (h : ∀ ch ∈ t, ch ≠ ',') (u : List Char) :
    splitCommas (t ++ ',' :: u) = t :: splitCommas u := by
  induction t with
  | nil => rfl
  | cons ch t ih =>
    obtain ⟨hch, ht⟩ := List.forall_mem_cons.mp h
    have ht' := ih ht
    simp_all [splitCommas]

/-! ### One line: a mnemonic and its operands -/

theorem operandTexts_space {t : List Char} (h : Trimmed t) : operandTexts (' ' :: t) = splitCommas t := by
  rw [operandTexts, trimBlank_space, h.trimBlank]
  obtain ⟨⟨ch, u, rfl, _⟩, _⟩ := h
  rfl

/-- A mnemonic, one blank and the operands are read as the mnemonic and the operands (R49). -/
theorem assembleLine_of_operands {m t : List Char} {l : AsmLine} (hm : isToken m = true) (ht : Trimmed t)
    (hsemi : ∀ ch ∈ t, ch ≠ ';') (hl : parseOperands m (splitCommas t) = .ok l) :
    assembleLine (m ++ ' ' :: t) = .ok l.expand := by
  have hstrip : stripComment (m ++ ' ' :: t) = m ++ ' ' :: t := by
    have hall : ∀ ch ∈ m ++ ' ' :: t, ch ≠ ';' :=
      List.forall_mem_append.mpr ⟨ne_semicolon_of_isToken hm, List.forall_mem_cons.mpr ⟨by decide, hsemi⟩⟩
    exact List.takeWhile_eq_self_iff.mpr (by simpa using hall)
  have htrim : Trimmed (m ++ ' ' :: t) := by
    simpa using (Trimmed.of_isToken hm).between [' '] ht
  have hb : ∀ ch ∈ m, (!isBlank ch) = true := by simpa using not_isBlank_of_isToken hm
  have htake : (m ++ ' ' :: t).takeWhile (fun ch => !isBlank ch) = m := by
    rw [List.takeWhile_append_of_pos hb]
    exact List.append_nil m
  have hdrop : (m ++ ' ' :: t).dropWhile (fun ch => !isBlank ch) = ' ' :: t := by
    rw [List.dropWhile_append_of_pos hb]
    rfl
  have htext : trimBlank (stripComment (m ++ ' ' :: t)) = m ++ ' ' :: t := by rw [hstrip, htrim.trimBlank]
  obtain ⟨⟨ch, u, hline, _⟩, _⟩ := htrim
  rw [hline] at htext htake hdrop ⊢
  simp only [assembleLine, htext, htake, hdrop, operandTexts_space ht, hl]

/-! ### Numbers, printed and read -/

theorem isTokenChar_hexChar (n : Nibble) : isTokenChar (hexChar n) = true := by decide +revert

theorem digitValue_hexChar (n : Nibble) : digitValue (hexChar n) = some n.toNat := by decide +revert

theorem isToken_showWord (b : Word) : isToken (showWord b) = true := by
  have h0 : isTokenChar '0' = true ∧ isTokenChar 'x' = true := by decide
  simp [isToken, showWord, isTokenChar_hexChar, h0]

theorem isToken_showSmall {n : Nat} (h : n < 16) : isToken (showSmall n) = true := by
  decide +revert

theorem numberValue_showSmall {n : Nat} (h : n < 16) : numberValue (showSmall n) = some n := by
  decide +revert

theorem digitsValue_hexChars (a b c d : Nibble) : digitsValue 16 ([a, b, c, d].map hexChar) =
    some (((a.toNat * 16 + b.toNat) * 16 + c.toNat) * 16 + d.toNat) := by
  have hlt (n : Nibble) : n.toNat < 16 := n.isLt
  simp [digitsValue, digitValue_hexChar, hlt]

/-- Four hexadecimal digits are the word they are cut from. -/
theorem numberValue_showWord (b : Word) : numberValue (showWord b) = some b.toNat := by
  have hdigits : numberValue (showWord b) = digitsValue 16
      ([b.extractLsb' 12 4, b.extractLsb' 8 4, b.extractLsb' 4 4, b.extractLsb' 0 4].map hexChar) := rfl
  rw [hdigits, digitsValue_hexChars, Option.some.injEq]
  simp only [BitVec.extractLsb'_toNat, Nat.shiftRight_eq_div_pow]
  omega

theorem operandValue_of_token {max v : Nat} {x : List Char} (hx : isToken x = true) (hn : numberValue x = some v)
    (hv : v ≤ max) : operandValue max x = .ok v := by
  simp [operandValue, (Trimmed.of_isToken hx).trimBlank, hn, hv]

theorem operandValue_space (max : Nat) (x : List Char) : operandValue max (' ' :: x) = operandValue max x := rfl

/-! ### The texts of the commands -/

theorem showInstr_ldk (k : Word) : showInstr (.ldk k) = "LDK".toList ++ ' ' :: showWord k := rfl

theorem showInstr_lds (b : Word) : showInstr (.lds b) = "LDS".toList ++ ' ' :: showWord b := rfl

theorem showInstr_ark (n : BitVec 2) : showInstr (.ark n) = "ARK".toList ++ ' ' :: showSmall n.toNat := rfl

theorem showInstr_gfmul (a b : Nibble) : showInstr (.gfmul a b) =
    "GFMUL".toList ++ ' ' :: (showSmall a.toNat ++ [',', ' '] ++ showSmall b.toNat) := by
  change "GFMUL ".toList ++ showSmall a.toNat ++ ", ".toList ++ showSmall b.toNat = _
  simp

theorem parseOperands_ldk (ops : List (List Char)) : parseOperands "LDK".toList ops =
    oneOperand ops 0xFFFF fun v => .command (.ldk (BitVec.ofNat 16 v)) := by
  simp [parseOperands]

theorem parseOperands_lds (ops : List (List Char)) : parseOperands "LDS".toList ops =
    oneOperand ops 0xFFFF fun v => .command (.lds (BitVec.ofNat 16 v)) := by
  simp [parseOperands]

theorem parseOperands_ark (ops : List (List Char)) : parseOperands "ARK".toList ops =
    oneOperand ops 2 fun v => .command (.ark (BitVec.ofNat 2 v)) := by
  simp [parseOperands]

theorem parseOperands_gfmul (ops : List (List Char)) : parseOperands "GFMUL".toList ops =
    twoOperands ops 15 fun v v' => .command (.gfmul (BitVec.ofNat 4 v) (BitVec.ofNat 4 v')) := by
  simp [parseOperands]

/-- A line with one operand, from the value of the operand. -/
theorem assembleLine_of_oneOperand {m x : List Char} {max v : Nat} {f : Nat → AsmLine} (hm : isToken m = true)
    (hp : ∀ ops, parseOperands m ops = oneOperand ops max f) (hx : isToken x = true) (hn : numberValue x = some v)
    (hv : v ≤ max) : assembleLine (m ++ ' ' :: x) = .ok (f v).expand := by
  refine assembleLine_of_operands hm (.of_isToken hx) (ne_semicolon_of_isToken hx) ?_
  rw [splitCommas_of_no_comma (ne_comma_of_isToken hx), hp]
  simp only [oneOperand, operandValue_of_token hx hn hv]

/-- A line with two operands, from the values of the operands. -/
theorem assembleLine_of_twoOperands {m x y : List Char} {max v w : Nat} {f : Nat → Nat → AsmLine}
    (hm : isToken m = true) (hp : ∀ ops, parseOperands m ops = twoOperands ops max f) (hx : isToken x = true)
    (hy : isToken y = true) (hxv : numberValue x = some v) (hyw : numberValue y = some w) (hv : v ≤ max)
    (hw : w ≤ max) : assembleLine (m ++ ' ' :: (x ++ [',', ' '] ++ y)) = .ok (f v w).expand := by
  have hcut : splitCommas (x ++ [',', ' '] ++ y) = [x, ' ' :: y] := by
    have hspace : ∀ ch ∈ ' ' :: y, ch ≠ ',' := List.forall_mem_cons.mpr ⟨by decide, ne_comma_of_isToken hy⟩
    rw [List.append_assoc, List.cons_append, List.singleton_append, splitCommas_append_comma (ne_comma_of_isToken hx),
      splitCommas_of_no_comma hspace]
  have hsep : ∀ ch ∈ [',', ' '], ch ≠ ';' := by simp
  have hsemi : ∀ ch ∈ x ++ [',', ' '] ++ y, ch ≠ ';' :=
    List.forall_mem_append.mpr
      ⟨List.forall_mem_append.mpr ⟨ne_semicolon_of_isToken hx, hsep⟩, ne_semicolon_of_isToken hy⟩
  refine assembleLine_of_operands hm ((Trimmed.of_isToken hx).between _ (.of_isToken hy)) hsemi ?_
  rw [hcut, hp]
  simp only [twoOperands, operandValue_space, operandValue_of_token hx hxv hv, operandValue_of_token hy hyw hw]

/-- A 16-bit operand as printed is a number in range. -/
theorem assembleLine_of_word {m : List Char} {f : Word → Instr} (hm : isToken m = true)
    (hp : ∀ ops, parseOperands m ops = oneOperand ops 0xFFFF fun v => .command (f (BitVec.ofNat 16 v))) (b : Word) :
    assembleLine (m ++ ' ' :: showWord b) = .ok [f b] := by
  have h := assembleLine_of_oneOperand hm hp (isToken_showWord b) (numberValue_showWord b) (Nat.le_of_lt_succ b.isLt)
  rwa [BitVec.ofNat_toNat, BitVec.setWidth_eq] at h

/-- Settles O56, by the form of the text: a mnemonic alone, with one operand, or with two. -/
theorem assemblerReadsWhatItPrints : Obligations.AssemblerReadsWhatItPrints := by
  intro i hwf
  cases i with
  | ldk k =>
    rw [showInstr_ldk]
    exact assembleLine_of_word (by decide) parseOperands_ldk k
  | lds b =>
    rw [showInstr_lds]
    exact assembleLine_of_word (by decide) parseOperands_lds b
  | ark n =>
    have hn : n.toNat ≤ 2 := by
      revert hwf
      decide +revert
    have hlt : n.toNat < 16 := by omega
    have h := assembleLine_of_oneOperand (by decide) parseOperands_ark (isToken_showSmall hlt)
      (numberValue_showSmall hlt) hn
    rwa [BitVec.ofNat_toNat, BitVec.setWidth_eq, ← showInstr_ark] at h
  | gfmul a b =>
    have h := assembleLine_of_twoOperands (by decide) parseOperands_gfmul (isToken_showSmall a.isLt)
      (isToken_showSmall b.isLt) (numberValue_showSmall a.isLt) (numberValue_showSmall b.isLt)
      (Nat.le_of_lt_succ a.isLt) (Nat.le_of_lt_succ b.isLt)
    rwa [BitVec.ofNat_toNat, BitVec.setWidth_eq, BitVec.ofNat_toNat, BitVec.setWidth_eq, ← showInstr_gfmul] at h
  | nop | kexp | subnib | isubnib | shrow | mixcol | imixcol | enc | dec => rfl

/-! ### The pseudo-instructions -/

/-- The first letters of the three pseudo-instructions of R50. -/
def pseudoHeads : List (List Char) := ["ISHR".toList, "IARK".toList, "LDKS".toList]

/-- No text printed begins as a pseudo-instruction does (R50). -/
theorem take_four_showInstr_notMem (i : Instr) : (showInstr i).take 4 ∉ pseudoHeads := by
  cases i with
  | ldk _ => exact (by decide : "LDK ".toList ∉ pseudoHeads)
  | lds _ => exact (by decide : "LDS ".toList ∉ pseudoHeads)
  | ark _ => exact (by decide : "ARK ".toList ∉ pseudoHeads)
  | gfmul _ _ => exact (by decide : "GFMU".toList ∉ pseudoHeads)
  | nop | kexp | subnib | isubnib | shrow | mixcol | imixcol | enc | dec => decide

theorem take_four_disassemble_notMem {w : CmdWord} {t : List Char} (h : disassemble w = some t) :
    t.take 4 ∉ pseudoHeads := by
  obtain ⟨i, _, rfl⟩ := Option.map_eq_some_iff.mp h
  exact take_four_showInstr_notMem i

/-- Settles O57: the expansions compute, and what a disassembler prints is the text of a command. -/
theorem pseudoInstructionsExpand : Obligations.PseudoInstructionsExpand := by
  refine ⟨by decide, by decide, fun _ _ => rfl, by decide, by decide, by decide, fun w => ⟨fun h => ?_, fun t h => ?_⟩⟩
  · exact take_four_disassemble_notMem h (by decide)
  · have hmem := take_four_disassemble_notMem h
    simp only [pseudoHeads, List.mem_cons, not_or] at hmem
    obtain ⟨_, hiark, hldks, _⟩ := hmem
    exact ⟨hiark, hldks⟩

/-- Settles O59: `ark 3` is not well-formed, and what decodes is. -/
theorem indexThreeNamesNoRoundKey : Obligations.IndexThreeNamesNoRoundKey := by
  refine ⟨fun w h => ?_, fun s hs => stepWord_of_rejected hs decode_index_three, execArk_three, by decide, by decide⟩
  obtain ⟨hwf, _⟩ := encodeInvertsDecode w _ h
  exact absurd hwf (by decide)

end Sys2Proof.Machine
end

section
/-! PROOFS. Multiplication in GF(16) (40_gf16.md R60 to R62, R64): a bit vector is read as a polynomial over ZMod 2, the
first loop of R61 is the product of polynomials, the second changes it by multiples of x⁴ + x + 1 alone, and so a nibble
multiplies as its residue modulo x⁴ + x + 1 does. The laws of R62 are then those of the ring of residues. -/

namespace Sys2Proof.Machine

open Polynomial

/-! ### Bit vectors as polynomials over ZMod 2 -/

/-- The polynomial whose coefficients are the bits of `p`, bit 0 the constant term (R60). -/
noncomputable def bitsPoly {w : Nat} (p : BitVec w) : (ZMod 2)[X] :=
  ∑ i ∈ Finset.range w, if p.getLsbD i then X ^ i else 0

theorem coeff_bitsPoly {w : Nat} (p : BitVec w) (n : Nat) :
    (bitsPoly p).coeff n = if p.getLsbD n then 1 else 0 := by
  have hterm (i : Nat) : (if p.getLsbD i then (X : (ZMod 2)[X]) ^ i else 0).coeff n =
      if n = i then (if p.getLsbD n then 1 else 0) else 0 := by
    rw [apply_ite (coeff · n), coeff_X_pow, coeff_zero]
    split_ifs <;> simp_all
  rw [bitsPoly, finsetSum_coeff, Finset.sum_congr rfl fun i _ => hterm i, Finset.sum_ite_eq]
  by_cases hn : n < w
  · simp [hn]
  · simp [hn, p.getLsbD_of_ge n (by omega)]

theorem bitsPoly_injective {w : Nat} : Function.Injective (bitsPoly (w := w)) := by
  intro p q h
  apply BitVec.eq_of_getLsbD_eq
  intro i _
  have hi := congrArg (coeff · i) h
  simp only [coeff_bitsPoly] at hi
  cases hp : p.getLsbD i <;> cases hq : q.getLsbD i <;> simp_all

theorem degree_bitsPoly_lt {w : Nat} (p : BitVec w) : (bitsPoly p).degree < w :=
  (degree_lt_iff_coeff_zero _ _).mpr fun n hn => by simp [coeff_bitsPoly, p.getLsbD_of_ge n hn]

/-- XOR adds the coefficients modulo 2. -/
@[simp] theorem bitsPoly_xor {w : Nat} (p q : BitVec w) : bitsPoly (p ^^^ q) = bitsPoly p + bitsPoly q := by
  have h11 : (0 : ZMod 2) = 1 + 1 := by decide
  ext n
  rw [coeff_add, coeff_bitsPoly, coeff_bitsPoly, coeff_bitsPoly, BitVec.getLsbD_xor]
  cases p.getLsbD n <;> cases q.getLsbD n <;> simp [h11]

/-- A left shift that loses no bit multiplies by a power of x. -/
theorem bitsPoly_setWidth_shiftLeft {v w i : Nat} (p : BitVec v) (h : v + i ≤ w) :
    bitsPoly (p.setWidth w <<< i) = X ^ i * bitsPoly p := by
  ext n
  rw [coeff_X_pow_mul', coeff_bitsPoly, coeff_bitsPoly, BitVec.getLsbD_shiftLeft, BitVec.getLsbD_setWidth]
  by_cases hn : i ≤ n
  · by_cases hv : n - i < v
    · simp [hn, show n < w by omega, show n - i < w by omega]
    · simp [p.getLsbD_of_ge (n - i) (by omega)]
  · simp [hn, show n < i by omega]

theorem bitsPoly_setWidth {v w : Nat} (p : BitVec v) (h : v ≤ w) : bitsPoly (p.setWidth w) = bitsPoly p := by
  simpa using bitsPoly_setWidth_shiftLeft (i := 0) p h

@[simp] theorem bitsPoly_zero {w : Nat} : bitsPoly 0#w = 0 := by
  simp [bitsPoly]

@[simp] theorem bitsPoly_one : bitsPoly 1#4 = 1 := by
  simp [bitsPoly]

/-! ### The two loops of R61 -/

/-- The first loop multiplies the polynomials: bit `i` of `b` adds `a` times x to the `i`. -/
theorem bitsPoly_carrylessProduct (a b : Nibble) :
    bitsPoly (carrylessProduct a b) = bitsPoly a * bitsPoly b := by
  have hstep (p : Byte) (i : Nat) (hi : 4 + i ≤ 8) :
      bitsPoly (if b.getLsbD i then p ^^^ (a.setWidth 8 <<< i) else p) =
        bitsPoly p + bitsPoly a * if b.getLsbD i then X ^ i else 0 := by
    split
    · rw [bitsPoly_xor, bitsPoly_setWidth_shiftLeft a hi, mul_comm]
    · simp
  simp only [carrylessProduct, List.foldl]
  rw [hstep _ 3 (by decide), hstep _ 2 (by decide), hstep _ 1 (by decide), hstep _ 0 (by decide)]
  simp [bitsPoly.eq_def b, Finset.sum_range_succ, mul_add]

/-- x⁴ + x + 1 (R60). -/
noncomputable def gfModulus : (ZMod 2)[X] := X ^ 4 + X + 1

/-- The constant of the second loop is the modulus of R60. -/
theorem bitsPoly_gfPoly_shiftLeft {i : Nat} (h : i ≤ 3) : bitsPoly (Config.gfPoly <<< i) = X ^ i * gfModulus := by
  have hpoly : bitsPoly (0b10011#5) = gfModulus := by
    simp [bitsPoly, gfModulus, Finset.sum_range_succ]
    ring
  rw [← hpoly, ← bitsPoly_setWidth_shiftLeft (w := 8) _ (by omega)]
  rfl

/-- The residue modulo x⁴ + x + 1 of the polynomial of a bit vector: the element of the field it stands for (R60). -/
noncomputable def residue {w : Nat} (p : BitVec w) : AdjoinRoot gfModulus := AdjoinRoot.mk gfModulus (bitsPoly p)

@[simp] theorem residue_xor {w : Nat} (p q : BitVec w) : residue (p ^^^ q) = residue p + residue q := by
  simp [residue]

@[simp] theorem residue_one : residue 1#4 = 1 := by
  simp [residue]

/-- The second loop adds multiples of the modulus alone. -/
theorem residue_gfReduce (p : Byte) : residue (gfReduce p) = residue p := by
  refine List.foldlRecOn (motive := fun q => residue q = residue p) _ _ rfl fun q hq j hj => ?_
  have hj4 : j - 4 ≤ 3 := by
    revert j
    decide
  have hmul : residue (Config.gfPoly <<< (j - 4)) = 0 := by
    rw [residue, bitsPoly_gfPoly_shiftLeft hj4, map_mul, AdjoinRoot.mk_self, mul_zero]
  split
  · rw [residue_xor, hmul, add_zero, hq]
  · exact hq

/-- The second loop leaves no bit above bit 3, so the low nibble is all of its result. -/
theorem setWidth_low_gfReduce (p : Byte) : ((gfReduce p).extractLsb' 0 4).setWidth 8 = gfReduce p := by
  decide +revert

/-- The short cut of R61 for a zero operand gives what the loops give. -/
theorem gfMul_eq_low_gfReduce (a b : Nibble) : gfMul a b = (gfReduce (carrylessProduct a b)).extractLsb' 0 4 := by
  unfold gfMul
  split
  · rename_i h
    rcases h with rfl | rfl <;> decide +revert
  · rfl

/-- A nibble multiplies as its residue does (R60). -/
@[simp] theorem residue_gfMul (a b : Nibble) : residue (gfMul a b) = residue a * residue b := by
  calc residue (gfMul a b) = residue (gfReduce (carrylessProduct a b)) := by
        rw [gfMul_eq_low_gfReduce, residue, ← bitsPoly_setWidth (w := 8) _ (by decide), setWidth_low_gfReduce, residue]
    _ = residue (carrylessProduct a b) := residue_gfReduce _
    _ = residue a * residue b := by rw [residue, bitsPoly_carrylessProduct, map_mul, residue, residue]

/-- Settles O41: a divisor of a difference is an equality of residues. -/
theorem gfMulIsPolynomialProduct : Obligations.GfMulIsPolynomialProduct := by
  refine ⟨bitsPoly_xor, fun a b => AdjoinRoot.mk_eq_mk.mp ?_⟩
  exact (map_mul _ _ _).trans (residue_gfMul a b).symm

/-! ### The laws of the multiplier -/

/-- A polynomial of degree below 4 is the only one of its residue, so a nibble is fixed by its residue. -/
theorem residue_injective : Function.Injective (residue (w := 4)) := by
  intro a b h
  have hdeg : gfModulus.degree = 4 := by
    unfold gfModulus
    compute_degree!
  refine bitsPoly_injective (sub_eq_zero.mp (eq_zero_of_dvd_of_degree_lt (AdjoinRoot.mk_eq_mk.mp h) ?_))
  rw [hdeg]
  exact (degree_sub_le _ _).trans_lt (max_lt (degree_bitsPoly_lt a) (degree_bitsPoly_lt b))

theorem gfMul_comm (a b : Nibble) : gfMul a b = gfMul b a :=
  residue_injective (by simp [mul_comm])

theorem gfMul_assoc (a b c : Nibble) : gfMul (gfMul a b) c = gfMul a (gfMul b c) :=
  residue_injective (by simp [mul_assoc])

theorem gfMul_xor (a b c : Nibble) : gfMul a (b ^^^ c) = gfMul a b ^^^ gfMul a c :=
  residue_injective (by simp [mul_add])

@[simp] theorem gfMul_zero (a : Nibble) : gfMul a 0#4 = 0#4 := if_pos (.inr rfl)

@[simp] theorem zero_gfMul (b : Nibble) : gfMul 0#4 b = 0#4 := if_pos (.inl rfl)

@[simp] theorem gfMul_one (a : Nibble) : gfMul a 1#4 = a :=
  residue_injective (by rw [residue_gfMul, residue_one, mul_one])

theorem gfMul_eq_one_iff {a b : Nibble} : gfMul a b = 1#4 ↔ residue a * residue b = 1 := by
  rw [← residue_injective.eq_iff, residue_gfMul, residue_one]

theorem exists_gfMul_eq_one : ∀ a : Nibble, a ≠ 0 → ∃ b, gfMul a b = 1 := by
  decide

/-- Two inverses of a nibble are one, as in every commutative ring. -/
theorem gfMul_inverse_unique {a b c : Nibble} (hb : gfMul a b = 1) (hc : gfMul a c = 1) : b = c :=
  residue_injective (left_inv_eq_right_inv (gfMul_eq_one_iff.mp (gfMul_comm b a ▸ hb)) (gfMul_eq_one_iff.mp hc))

theorem existsUnique_gfMul_eq_one {a : Nibble} (h : a ≠ 0) : ∃! b, gfMul a b = 1 :=
  existsUnique_of_exists_of_unique (exists_gfMul_eq_one a h) fun _ _ => gfMul_inverse_unique

/-- Settles O42: the laws are those of the ring of residues. -/
theorem gfMulLaws : Obligations.GfMulLaws :=
  ⟨gfMul_comm, gfMul_assoc, gfMul_xor, fun a => ⟨gfMul_zero a, zero_gfMul a, gfMul_one a⟩,
    fun _ => existsUnique_gfMul_eq_one, by decide, rfl, rfl⟩

end Sys2Proof.Machine

namespace Sys2Proof.Safety

open Sys2Proof.Machine

/-! ### The command -/

/-- An operand field that the decoder rejects as a field raises `EFIELD` (R43). -/
theorem raisesEfield_of_decodeFields {op : Nibble} {bad : Word → Prop}
    (h : ∀ imm, bad imm → decodeFields op imm = .rejected .efield) : RaisesEfield op bad :=
  fun imm _ hbad herr => stepWord_of_rejected herr ((decode_append op imm).trans (h imm hbad))

/-- The word of `GFMUL a, b` as a number (R64). -/
theorem encode_gfmul (a b : Nibble) : encode (.gfmul a b) = 0xC0000 + 16 * a.setWidth 20 + b.setWidth 20 := by
  decide +revert

/-- Settles O37: the multiplier writes `GP` and `GV` alone, and a nonzero imm[15:8] is an illegal field of format G. -/
theorem gfmulMultiplies : Obligations.GfmulMultiplies := by
  refine ⟨encode_gfmul, raisesEfield_of_decodeFields fun imm hbad => ?_, fun _ _ _ => rfl,
    fun a => ⟨gfMul_zero a, zero_gfMul a, gfMul_one a⟩, by decide, by decide, by decide, by decide⟩
  exact checkFields_of_illegal (by simpa using hbad) _

end Sys2Proof.Safety
end

section
/-! PROOFS. The tables and the round primitives (41_sbox_round_primitives.md R73 to R81, R88, R89). The substitutions
are one function on every nibble; the column mixes are a matrix on every column, and the ring of residues of R60 gives
them linearity and the product of two matrices. -/

namespace Sys2Proof

/-! ### The tables -/

@[simp] theorem Config.Boxes.inv_sub (c : Config.Boxes) (n : Nibble) : c.inv (c.sub n) = n := c.isbox_sbox n

@[simp] theorem Config.Boxes.sub_inv (c : Config.Boxes) (n : Nibble) : c.sub (c.inv n) = n := c.sbox_isbox n

/-- 0xC is the only fixed point of the default table of R71. -/
theorem defaultBoxes_sub_eq_self_iff : ∀ n : Nibble, Config.defaultBoxes.sub n = n ↔ n = 0xC := by
  decide

/-- Settles O43: each table has the other as its inverse on both sides. -/
theorem boxesAreInversePermutations : Obligations.BoxesAreInversePermutations :=
  ⟨fun c => ⟨Function.bijective_iff_has_inverse.mpr ⟨c.inv, c.inv_sub, c.sub_inv⟩,
    Function.bijective_iff_has_inverse.mpr ⟨c.sub, c.sub_inv, c.inv_sub⟩, c.inv_sub, c.sub_inv⟩,
    by decide, by decide, defaultBoxes_sub_eq_self_iff⟩

namespace Machine

/-! ### A block and its State, nibbles and bytes -/

@[simp] theorem blockToState_ofNibs (a b c d : Nibble) :
    blockToState (ofNibs a b c d) = { s00 := a, s10 := b, s01 := c, s11 := d } := by
  simp [blockToState]

/-- Settles O44: the entries of the State are the four nibbles of the block. -/
theorem blockAndStateConvert : Obligations.BlockAndStateConvert :=
  ⟨fun _ => ⟨rfl, rfl, rfl, rfl⟩, fun _ => rfl, ofNibs_nib, fun _ => blockToState_ofNibs _ _ _ _⟩

/-- A nibble is the nibble of the byte it stands in: 0 and 1 in the high byte, 2 and 3 in the low one. -/
theorem nib_eq_extract_byte (b : Word) :
    nib b 0 = (hi b).extractLsb' 4 4 ∧ nib b 1 = (hi b).extractLsb' 0 4 ∧
    nib b 2 = (lo b).extractLsb' 4 4 ∧ nib b 3 = (lo b).extractLsb' 0 4 := by
  have cut (start i : Nat) (h : i ≤ 4) : b.extractLsb' (start + i) 4 = (b.extractLsb' start 8).extractLsb' i 4 := by
    ext j hj
    simp [BitVec.getElem_extractLsb', Nat.add_assoc, show i + j < 8 by omega]
  exact ⟨cut 8 4 (by decide), cut 8 0 (by decide), cut 0 4 (by decide), cut 0 0 (by decide)⟩

/-- Four nibbles are two bytes. -/
theorem ofNibs_eq_ofBytes (a b c d : Nibble) : ofNibs a b c d = ofBytes (a ++ b) (c ++ d) := by
  apply BitVec.eq_of_getLsbD_eq
  intro i hi
  simp only [ofBytes, ofNibs_getLsbD, word_getLsbD, byte_getLsbD]
  grind

@[simp] theorem ofNibs_ushiftRight_eight (a b c d : Nibble) : ofNibs a b c d >>> 8 = ofNibs 0 0 a b := by
  apply BitVec.eq_of_getLsbD_eq
  intro i hi
  simp only [BitVec.getLsbD_ushiftRight, ofNibs_getLsbD]
  grind

@[simp] theorem ofNibs_shiftLeft_eight (a b c d : Nibble) : ofNibs a b c d <<< 8 = ofNibs c d 0 0 := by
  apply BitVec.eq_of_getLsbD_eq
  intro i hi
  simp only [BitVec.getLsbD_shiftLeft, ofNibs_getLsbD]
  grind

@[simp] theorem nib_and (x y : Word) (i : Nat) : nib (x &&& y) i = nib x i &&& nib y i :=
  BitVec.extractLsb'_and

@[simp] theorem nib_or (x y : Word) (i : Nat) : nib (x ||| y) i = nib x i ||| nib y i :=
  BitVec.extractLsb'_or

/-- A mask made of nibbles acts nibble by nibble. -/
theorem and_ofNibs (b : Word) (p q r t : Nibble) :
    b &&& ofNibs p q r t = ofNibs (nib b 0 &&& p) (nib b 1 &&& q) (nib b 2 &&& r) (nib b 3 &&& t) :=
  word_ext_nib (by simp) (by simp) (by simp) (by simp)

theorem ofNibs_or (a b c d a' b' c' d' : Nibble) : ofNibs a b c d ||| ofNibs a' b' c' d' =
    ofNibs (a ||| a') (b ||| b') (c ||| c') (d ||| d') :=
  word_ext_nib (by simp) (by simp) (by simp) (by simp)

/-! ### One function on every nibble -/

/-- The block whose nibbles are those of `b` through `f`: four lanes, as R89 says of the substitutions. -/
def mapNibs (f : Nibble → Nibble) (b : Word) : Word :=
  ofNibs (f (nib b 0)) (f (nib b 1)) (f (nib b 2)) (f (nib b 3))

theorem subNib_eq_mapNibs (c : Config.Boxes) : subNib c = mapNibs c.sub := rfl

theorem invSubNib_eq_mapNibs (c : Config.Boxes) : invSubNib c = mapNibs c.inv := rfl

theorem nib_mapNibs (f : Nibble → Nibble) (b : Word) : ∀ i < 4, nib (mapNibs f b) i = f (nib b i)
  | 0, _ | 1, _ | 2, _ | 3, _ => by simp [mapNibs]

theorem mapNibs_undo {f g : Nibble → Nibble} (h : ∀ n, g (f n) = n) (b : Word) : mapNibs g (mapNibs f b) = b := by
  rw [mapNibs]
  simp [nib_mapNibs, h, ofNibs_nib]

/-- A lane of the result depends on the same lane of the operand alone. -/
theorem nib_mapNibs_congr (f : Nibble → Nibble) {x y : Word} {i : Nat} (hi : i < 4) (h : nib x i = nib y i) :
    nib (mapNibs f x) i = nib (mapNibs f y) i := by
  rw [nib_mapNibs f x i hi, nib_mapNibs f y i hi, h]

/-- A block is fixed where each of its nibbles is. -/
theorem mapNibs_eq_self_iff {f : Nibble → Nibble} {b : Word} : mapNibs f b = b ↔
    f (nib b 0) = nib b 0 ∧ f (nib b 1) = nib b 1 ∧ f (nib b 2) = nib b 2 ∧ f (nib b 3) = nib b 3 := by
  conv_lhs => rhs; rw [← ofNibs_nib b]
  exact ofNibs_inj

theorem invSubNib_subNib (c : Config.Boxes) (b : Word) : invSubNib c (subNib c b) = b := by
  rw [invSubNib_eq_mapNibs, subNib_eq_mapNibs, mapNibs_undo c.inv_sub]

theorem subNib_invSubNib (c : Config.Boxes) (b : Word) : subNib c (invSubNib c b) = b := by
  rw [invSubNib_eq_mapNibs, subNib_eq_mapNibs, mapNibs_undo c.sub_inv]

/-- Settles O45: four lanes through one table, and each table undoes the other. -/
theorem subNibActsOnEveryEntry : Obligations.SubNibActsOnEveryEntry :=
  fun c b => ⟨⟨blockToState_ofNibs _ _ _ _, blockToState_ofNibs _ _ _ _⟩, rfl, rfl, invSubNib_subNib c b,
    subNib_invSubNib c b⟩

/-! ### The shift of row 1 -/

theorem shiftRow_shiftRow (b : Word) : shiftRow (shiftRow b) = b := by
  simp [shiftRow, ofNibs_nib]

theorem shiftRow_xor (x y : Word) : shiftRow (x ^^^ y) = shiftRow x ^^^ shiftRow y := by
  simp [shiftRow, ofNibs_xor]

theorem shiftRow_mapNibs (f : Nibble → Nibble) (b : Word) : shiftRow (mapNibs f b) = mapNibs f (shiftRow b) := by
  simp [shiftRow, mapNibs]

/-- Two equal entries of row 1 may change places unseen. -/
theorem shiftRow_eq_self {b : Word} (h : nib b 1 = nib b 3) : shiftRow b = b :=
  word_ext_nib (by simp [shiftRow]) (by simp [shiftRow, h]) (by simp [shiftRow]) (by simp [shiftRow, h])

/-- The masks of R78 keep the nibbles 0 and 2, and the shifts take the nibbles 1 and 3 to each other's place. -/
theorem shiftRow_eq_masks (b : Word) :
    shiftRow b = (b &&& 0xF0F0) ||| ((b &&& 0x0F00) >>> 8) ||| ((b &&& 0x000F) <<< 8) := by
  change shiftRow b = (b &&& ofNibs 0xF 0 0xF 0) ||| ((b &&& ofNibs 0 0xF 0 0) >>> 8) |||
    ((b &&& ofNibs 0 0 0 0xF) <<< 8)
  have hF (n : Nibble) : n &&& 0xF = n := BitVec.and_allOnes
  simp only [and_ofNibs, ofNibs_ushiftRight_eight, ofNibs_shiftLeft_eight, ofNibs_or, hF]
  simp [shiftRow]

/-- Settles O46: the block 0x0100 tells the shift from the transpose (C2). -/
theorem shiftRowSwapsRowOne : Obligations.ShiftRowSwapsRowOne :=
  ⟨fun _ => blockToState_ofNibs _ _ _ _, fun _ => rfl, shiftRow_eq_masks, shiftRow_shiftRow, 0x0100, by decide⟩

/-! ### A matrix on every column -/

/-- The product of two matrices over GF(16). -/
def mulMat (m n : Config.Mat2) : Config.Mat2 :=
  { m00 := gfMul m.m00 n.m00 ^^^ gfMul m.m01 n.m10, m01 := gfMul m.m00 n.m01 ^^^ gfMul m.m01 n.m11
    m10 := gfMul m.m10 n.m00 ^^^ gfMul m.m11 n.m10, m11 := gfMul m.m10 n.m01 ^^^ gfMul m.m11 n.m11 }

@[simp] theorem one_gfMul (a : Nibble) : gfMul 1#4 a = a := by
  rw [gfMul_comm, gfMul_one]

theorem matRow0_matRows (m n : Config.Mat2) (x y : Nibble) :
    matRow0 m (matRow0 n x y) (matRow1 n x y) = matRow0 (mulMat m n) x y :=
  residue_injective (by simp only [matRow0, matRow1, mulMat, residue_xor, residue_gfMul]; ring)

theorem matRow1_matRows (m n : Config.Mat2) (x y : Nibble) :
    matRow1 m (matRow0 n x y) (matRow1 n x y) = matRow1 (mulMat m n) x y :=
  residue_injective (by simp only [matRow0, matRow1, mulMat, residue_xor, residue_gfMul]; ring)

/-- Two matrices in turn are their product. -/
theorem mulColumns_mulColumns (m n : Config.Mat2) (b : Word) :
    mulColumns m (mulColumns n b) = mulColumns (mulMat m n) b := by
  simp [mulColumns, matRow0_matRows, matRow1_matRows]

theorem mulColumns_one (b : Word) : mulColumns ⟨1, 0, 0, 1⟩ b = b := by
  simp [mulColumns, matRow0, matRow1, ofNibs_nib]

theorem matRow0_xor (m : Config.Mat2) (x y x' y' : Nibble) :
    matRow0 m (x ^^^ x') (y ^^^ y') = matRow0 m x y ^^^ matRow0 m x' y' :=
  residue_injective (by simp only [matRow0, residue_xor, residue_gfMul]; ring)

theorem matRow1_xor (m : Config.Mat2) (x y x' y' : Nibble) :
    matRow1 m (x ^^^ x') (y ^^^ y') = matRow1 m x y ^^^ matRow1 m x' y' :=
  residue_injective (by simp only [matRow1, residue_xor, residue_gfMul]; ring)

theorem mulColumns_xor (m : Config.Mat2) (x y : Word) :
    mulColumns m (x ^^^ y) = mulColumns m x ^^^ mulColumns m y := by
  simp [mulColumns, ofNibs_xor, matRow0_xor, matRow1_xor]

theorem invMixCol_mixCol (b : Word) : invMixCol (mixCol b) = b := by
  have hprod : mulMat Config.imix Config.mix = ⟨1, 0, 0, 1⟩ := by decide
  rw [invMixCol, mixCol, mulColumns_mulColumns, hprod, mulColumns_one]

theorem mixCol_invMixCol (b : Word) : mixCol (invMixCol b) = b := by
  have hprod : mulMat Config.mix Config.imix = ⟨1, 0, 0, 1⟩ := by decide
  rw [invMixCol, mixCol, mulColumns_mulColumns, hprod, mulColumns_one]

/-- The entries 1 of MIX multiply nothing (R79). -/
theorem mixCol_eq_ofNibs (b : Word) : mixCol b =
    ofNibs (nib b 0 ^^^ gfMul 4 (nib b 1)) (gfMul 4 (nib b 0) ^^^ nib b 1)
      (nib b 2 ^^^ gfMul 4 (nib b 3)) (gfMul 4 (nib b 2) ^^^ nib b 3) := by
  simp [mixCol, mulColumns, matRow0, matRow1, Config.mix]

/-- Settles O47: the two column mixes are the products with MIX and IMIX, and the product of these is the identity. -/
theorem mixColActsOnEveryColumn : Obligations.MixColActsOnEveryColumn :=
  ⟨by decide, fun b => ⟨blockToState_ofNibs _ _ _ _, mixCol_eq_ofNibs b, blockToState_ofNibs _ _ _ _, rfl,
    invMixCol_mixCol b, mixCol_invMixCol b⟩⟩

/-! ### The key mix -/

theorem keyMix_keyMix (b k : Word) : keyMix (keyMix b k) k = b := by
  rw [keyMix, keyMix, BitVec.xor_assoc, BitVec.xor_self, BitVec.xor_zero]

/-- Settles O48: the entries are nibbles, and XOR acts on each. -/
theorem keyMixAddsEntryByEntry : Obligations.KeyMixAddsEntryByEntry :=
  fun b k => ⟨by simp [blockToState, keyMix], rfl, keyMix_keyMix b k⟩

/-! ### Linearity -/

theorem shiftRow_subNib (c : Config.Boxes) (b : Word) : shiftRow (subNib c b) = subNib c (shiftRow b) :=
  shiftRow_mapNibs c.sub b

theorem shiftRow_invSubNib (c : Config.Boxes) (b : Word) : shiftRow (invSubNib c b) = invSubNib c (shiftRow b) :=
  shiftRow_mapNibs c.inv b

/-- A function that is linear over XOR takes 0 to 0. -/
theorem map_zero_of_map_xor {f : Word → Word} (h : ∀ x y, f (x ^^^ y) = f x ^^^ f y) : f 0 = 0 := by
  simpa using h 0 0

/-- Settles O49: a matrix is linear, as the shift is, and the substitutions do not take 0 to 0. -/
theorem primitivesLinearity : Obligations.PrimitivesLinearity :=
  ⟨fun x y => ⟨shiftRow_xor x y, mulColumns_xor Config.mix x y, mulColumns_xor Config.imix x y⟩,
    ⟨map_zero_of_map_xor shiftRow_xor, map_zero_of_map_xor (mulColumns_xor Config.mix),
      map_zero_of_map_xor (mulColumns_xor Config.imix)⟩,
    by decide, fun h => absurd (map_zero_of_map_xor h) (by decide), fun h => absurd (map_zero_of_map_xor h) (by decide),
    fun c b => ⟨shiftRow_subNib c b, shiftRow_invSubNib c b⟩⟩

/-! ### Lanes -/

/-- A matrix applied to one column, the byte whose nibbles are its two entries (R12, R89). -/
def mulColumn (m : Config.Mat2) (w : Byte) : Byte :=
  matRow0 m (w.extractLsb' 4 4) (w.extractLsb' 0 4) ++ matRow1 m (w.extractLsb' 4 4) (w.extractLsb' 0 4)

/-- The columns of a block are its two bytes, and a matrix acts on each by itself. -/
theorem mulColumns_eq_ofBytes (m : Config.Mat2) (b : Word) :
    mulColumns m b = ofBytes (mulColumn m (hi b)) (mulColumn m (lo b)) := by
  obtain ⟨h0, h1, h2, h3⟩ := nib_eq_extract_byte b
  rw [mulColumns, ofNibs_eq_ofBytes, h0, h1, h2, h3, mulColumn, mulColumn]

theorem hi_mulColumns (m : Config.Mat2) (b : Word) : hi (mulColumns m b) = mulColumn m (hi b) := by
  rw [mulColumns_eq_ofBytes, hi_ofBytes]

theorem lo_mulColumns (m : Config.Mat2) (b : Word) : lo (mulColumns m b) = mulColumn m (lo b) := by
  rw [mulColumns_eq_ofBytes, lo_ofBytes]

/-- Settles O50: a lane of the result is a function of the same lane of the operand. -/
theorem primitivesActOnLanes : Obligations.PrimitivesActOnLanes :=
  ⟨fun c _ _ _ hlt h => ⟨nib_mapNibs_congr c.sub hlt h, nib_mapNibs_congr c.inv hlt h⟩,
    fun _ _ => ⟨fun h => by simp [mixCol, invMixCol, hi_mulColumns, h],
      fun h => by simp [mixCol, invMixCol, lo_mulColumns, h]⟩,
    fun x k i _ => BitVec.getLsbD_xor⟩

end Machine
end Sys2Proof
end

section
/-! PROOFS. The round commands (41_sbox_round_primitives.md R82 to R87): each is one guarded effect on `ST`, so its
statement is the legal operand fields of its format, the effect where the flags are 1, and the primitive's own facts. -/

namespace Sys2Proof.Machine

/-! ### A command that undoes another -/

/-- Two commands whose effects on `ST` undo each other leave the state as it was. -/
theorem andThen_exec_undo {i j : Instr} {f g : Word → Word} {s : State} (hfg : ∀ b, g (f b) = b)
    (hi : exec i s = .next (s.mapSt f)) (hj : exec j (s.mapSt f) = .next ((s.mapSt f).mapSt g)) :
    andThen (exec i s) (exec j) = .next s := by
  rw [hi, andThen_next, hj, State.mapSt_undo hfg]

section RoundEffects

variable {s : State} (hsv : s.status.sv = true)
include hsv

theorem exec_subnib_of_valid : exec .subnib s = .next (s.mapSt (subNib Config.boxes)) := requireValid_of_true hsv _ s

theorem exec_isubnib_of_valid : exec .isubnib s = .next (s.mapSt (invSubNib Config.boxes)) :=
  requireValid_of_true hsv _ s

theorem exec_shrow_of_valid : exec .shrow s = .next (s.mapSt shiftRow) := requireValid_of_true hsv _ s

theorem exec_mixcol_of_valid : exec .mixcol s = .next (s.mapSt mixCol) := requireValid_of_true hsv _ s

theorem exec_imixcol_of_valid : exec .imixcol s = .next (s.mapSt invMixCol) := requireValid_of_true hsv _ s

theorem exec_ark_of_valid (hrkv : s.status.rkv = true) {n : BitVec 2} {k : Word} (hk : s.rk.get? n = some k) :
    exec (.ark n) s = .next (s.mapSt fun b => keyMix b k) :=
  (execArk_of_some hk).trans (requireValid_of_true (Bool.and_eq_true_iff.mpr ⟨hsv, hrkv⟩) _ s)

end RoundEffects

/-- Every index but 3 names a round key (R42). -/
theorem RoundKeys.exists_get?_eq_some (rk : RoundKeys) {n : BitVec 2} (hn : n ≠ 3) : ∃ k, rk.get? n = some k :=
  Option.ne_none_iff_exists'.mp (mt (rk.get?_eq_none_iff n).mp hn)

/-- `ARK` of a legal index takes one fault whichever of its two flags is 0 (R87). -/
theorem exec_ark_of_not_valid {n : BitVec 2} (hn : n ≠ 3) {s : State}
    (h : s.status.sv = false ∨ s.status.rkv = false) : exec (.ark n) s = .next (s.takeFault .euninit) := by
  obtain ⟨k, hk⟩ := s.rk.exists_get?_eq_some hn
  exact (execArk_of_some hk).trans (requireValid_of_false (Bool.and_eq_false_iff.mpr h) _ s)

/-- The first round key is the key (R95). -/
theorem keyExpansion_k0 (c : Config.Boxes) (k : Word) : (keyExpansion c k).k0 = k := ofBytes_hi_lo k

/-- Everything a round command can do: it takes a fault, or it changes `ST`. -/
theorem round_next_cases {i : Instr} {s t : State} (hi : isRound i = true) (h : exec i s = .next t) :
    (∃ c, t = s.takeFault c) ∨ ∃ f, t = s.mapSt f := by
  rcases exec_next_cases h with hc | ⟨rfl, _⟩ | ⟨_, rfl, _⟩ | ⟨_, rfl, _⟩ | ⟨_, _, hf⟩ | ⟨rfl, _⟩ | ⟨rfl | rfl, _⟩ |
    ⟨_, _, rfl, _⟩
  case inl => exact .inl hc
  case inr.inr.inr.inr.inl => exact .inr hf
  all_goals cases hi

end Sys2Proof.Machine

namespace Sys2Proof.Safety

open Sys2Proof.Machine

/-- A command of format Z has no legal operand field but 0 (R41, R46). -/
theorem raisesEfield_of_format_z {op : Nibble} {i : Instr} (h : ∀ imm, decodeFields op imm = checkFields .z imm i) :
    RaisesEfield op (fun imm => imm ≠ 0) :=
  raisesEfield_of_decodeFields fun imm hbad =>
    (h imm).trans (checkFields_of_illegal (f := .z) (beq_eq_false_iff_ne.mpr hbad) i)

/-- In format N a nonzero imm[15:2] is illegal, and so is the index 3 (R46). -/
theorem raisesEfield_ark :
    RaisesEfield 0x4 (fun imm => imm.extractLsb' 2 14 ≠ 0 ∨ imm.extractLsb' 0 2 = (3 : BitVec 2)) := by
  refine raisesEfield_of_decodeFields fun imm hbad => checkFields_of_illegal ?_ _
  rw [fieldsLegal_n, Bool.and_eq_false_iff, beq_eq_false_iff_ne, bne_eq_false_iff_eq]
  exact hbad

/-! ### The statements of the commands -/

/-- Settles O30: a block is fixed where its four nibbles are, and 0xC is the one nibble the default table fixes. -/
theorem subnibSubstitutes : Obligations.SubnibSubstitutes := by
  refine ⟨by decide, raisesEfield_of_format_z decodeFields_subnib, fun _ => exec_subnib_of_valid,
    fun s h => requireValid_of_false h _ s, by decide, fun b => ?_, by decide⟩
  have hC : (0xCCCC : Word) = ofNibs 0xC 0xC 0xC 0xC := by decide
  rw [subNib_eq_mapNibs, mapNibs_eq_self_iff]
  simp only [defaultBoxes_sub_eq_self_iff]
  rw [hC, ← ofNibs_inj, ofNibs_nib]

/-- Settles O31: the two commands undo each other as the two tables do. -/
theorem isubnibSubstitutesBack : Obligations.IsubnibSubstitutesBack :=
  ⟨by decide, raisesEfield_of_format_z decodeFields_isubnib, fun _ => exec_isubnib_of_valid,
    fun s h => requireValid_of_false h _ s,
    fun _ h => ⟨andThen_exec_undo (invSubNib_subNib _) (exec_subnib_of_valid h) (exec_isubnib_of_valid h),
      andThen_exec_undo (subNib_invSubNib _) (exec_isubnib_of_valid h) (exec_subnib_of_valid h)⟩,
    by decide, by decide, by decide⟩

/-- Settles O32: the command is the shift of row 1, which is its own inverse. -/
theorem shrowSwapsRowOne : Obligations.ShrowSwapsRowOne :=
  ⟨by decide, raisesEfield_of_format_z decodeFields_shrow, fun _ => exec_shrow_of_valid,
    fun s h => requireValid_of_false h _ s,
    fun _ h => andThen_exec_undo shiftRow_shiftRow (exec_shrow_of_valid h) (exec_shrow_of_valid h),
    fun _ => shiftRow_eq_self, by decide, by decide⟩

/-- Settles O33: the effect is on `ST`, whatever the product uses inside. -/
theorem mixcolMixesColumns : Obligations.MixcolMixesColumns :=
  ⟨by decide, raisesEfield_of_format_z decodeFields_mixcol, fun _ => exec_mixcol_of_valid,
    fun s h => requireValid_of_false h _ s, by decide⟩

/-- Settles O34: the two commands undo each other as the two matrices do. -/
theorem imixcolUnmixesColumns : Obligations.ImixcolUnmixesColumns :=
  ⟨by decide, raisesEfield_of_format_z decodeFields_imixcol, fun _ => exec_imixcol_of_valid,
    fun s h => requireValid_of_false h _ s,
    fun _ h => ⟨andThen_exec_undo invMixCol_mixCol (exec_mixcol_of_valid h) (exec_imixcol_of_valid h),
      andThen_exec_undo mixCol_invMixCol (exec_imixcol_of_valid h) (exec_mixcol_of_valid h)⟩,
    by decide⟩

/-- Settles O29: the XOR with a round key undoes itself, the first round key is `KEY`, and `LDK` clears `RKV`. -/
theorem arkAddsTheRoundKey : Obligations.ArkAddsTheRoundKey := by
  refine ⟨by decide, raisesEfield_ark, fun s hsv hrkv => ?_, fun _ _ hn => exec_ark_of_not_valid hn,
    fun n s hn hsv hrkv => ?_, fun s hinv hsv hrkv => ?_, fun k n s t hn h => ?_, by decide⟩
  · exact ⟨exec_ark_of_valid hsv hrkv rfl, exec_ark_of_valid hsv hrkv rfl, exec_ark_of_valid hsv hrkv rfl⟩
  · obtain ⟨k, hk⟩ := s.rk.exists_get?_eq_some hn
    exact andThen_exec_undo (keyMix_keyMix · k) (exec_ark_of_valid hsv hrkv hk)
      (exec_ark_of_valid (s := s.mapSt fun b => keyMix b k) hsv hrkv hk)
  · have hk : s.rk.get? 0 = some s.key := by
      rw [hinv.expanded hrkv]
      exact congrArg some (keyExpansion_k0 _ _)
    exact exec_ark_of_valid hsv hrkv hk
  · cases h
    exact exec_ark_of_not_valid hn (.inr rfl)

/-! ### The frame -/

/-- Settles O38: a round command takes a fault or changes `ST`, and neither touches anything the frame names. -/
theorem roundCommandsFrame : Obligations.RoundCommandsFrame := by
  intro i s t hi h
  have hround : isRound i = true := by
    rcases hi with hi | ⟨n, rfl⟩
    · have hall : ∀ j ∈ [Instr.subnib, .isubnib, .shrow, .mixcol, .imixcol], isRound j = true := by decide
      exact hall i hi
    · rfl
  rcases round_next_cases hround h with ⟨c, rfl⟩ | ⟨f, rfl⟩
  · exact ⟨rfl, rfl, rfl, rfl, rfl, rfl, rfl, rfl, .inr ⟨c, rfl⟩⟩
  · exact ⟨rfl, rfl, rfl, rfl, rfl, rfl, rfl, rfl, .inl rfl⟩

end Sys2Proof.Safety
end

section
/-! PROOFS. The key schedule and the three commands that run it (42_key_schedule.md R90 to R95; 43_cipher_engine.md
R102, R103 for their frame). A word of the schedule is two nibbles: the rotation exchanges them and the substitution
keeps each in its place. Each command is one guarded write of the round keys over a change of `ST`. -/

namespace Sys2Proof.Machine

/-! ### The steps on one word -/

@[simp] theorem rotNib_append (x y : Nibble) : rotNib (x ++ y) = y ++ x :=
  congrArg₂ (fun lo hi : Nibble => (lo ++ hi : Byte)) BitVec.extractLsb'_append_eq_right
    BitVec.extractLsb'_append_eq_left

@[simp] theorem subWord_append (c : Config.Boxes) (x y : Nibble) : subWord c (x ++ y) = c.sub x ++ c.sub y :=
  congrArg₂ (fun hi lo : Nibble => (c.sub hi ++ c.sub lo : Byte)) BitVec.extractLsb'_append_eq_left
    BitVec.extractLsb'_append_eq_right

/-- A word of the key schedule is its two nibbles. -/
theorem byte_eq_append_nibbles (w : Byte) : w.extractLsb' 4 4 ++ w.extractLsb' 0 4 = w := by
  apply BitVec.eq_of_getLsbD_eq
  intro i hi
  simp only [byte_getLsbD, BitVec.getLsbD_extractLsb']
  grind

theorem rotNib_rotNib (w : Byte) : rotNib (rotNib w) = w :=
  (rotNib_append _ _).trans (byte_eq_append_nibbles w)

theorem rotNib_eq_rotateLeft (w : Byte) : rotNib w = w.rotateLeft 4 := by
  apply BitVec.eq_of_getLsbD_eq
  intro i hi
  simp only [rotNib, byte_getLsbD, BitVec.getLsbD_extractLsb', BitVec.getLsbD_rotateLeft]
  grind

/-- Four places are half of the eight, so the two directions of rotation meet. -/
theorem rotateRight_four_eq_rotateLeft (w : Byte) : w.rotateRight 4 = w.rotateLeft 4 := BitVec.or_comm _ _

/-- The substitution acts on each nibble alike, so the rotation may come before or after it (R92). -/
theorem subWord_rotNib (c : Config.Boxes) (w : Byte) : subWord c (rotNib w) = rotNib (subWord c w) :=
  (subWord_append c _ _).trans (rotNib_append _ _).symm

/-- Settles O51: a word is two nibbles, which the rotation exchanges and the substitution maps one by one. -/
theorem keyScheduleWordSteps : Obligations.KeyScheduleWordSteps :=
  ⟨fun w => ⟨rfl, rotNib_rotNib w, rotNib_eq_rotateLeft w,
      (rotNib_eq_rotateLeft w).trans (rotateRight_four_eq_rotateLeft w).symm⟩,
    fun _ _ => rfl, fun c w _ => ⟨rfl, subWord_rotNib c w⟩, by decide, by decide, by decide, by decide⟩

/-! ### The three round keys -/

/-- Settles O52: the model's schedule is the equations themselves; the unfolded `w3` is one exchange under XOR. -/
theorem keyExpansionEquations : Obligations.KeyExpansionEquations := by
  refine fun c k => ⟨?_, keyExpansion_k0 c k⟩
  rintro w0 w1 w2 w3 w4 w5 rfl rfl rfl rfl rfl rfl
  refine ⟨rfl, ?_, rfl⟩
  rw [BitVec.xor_assoc, BitVec.xor_comm (keyG _ _ _), ← BitVec.xor_assoc]

/-! ### The commands that expand the key -/

@[simp] theorem State.writeRoundKeys_twice (rk : RoundKeys) (s : State) :
    (s.writeRoundKeys rk).writeRoundKeys rk = s.writeRoundKeys rk := rfl

theorem exec_kexp_of_valid {s : State} (hkv : s.status.kv = true) :
    exec .kexp s = .next (s.writeRoundKeys (keyExpansion Config.boxes s.key)) := requireValid_of_true hkv _ s

/-- A second `KEXP` finds `KEY` and `KV` as they were, and so writes the same round keys (R94). -/
theorem andThen_kexp_kexp {s : State} (hkv : s.status.kv = true) :
    andThen (exec .kexp s) (exec .kexp) = exec .kexp s := by
  have hkv' : (s.writeRoundKeys (keyExpansion Config.boxes s.key)).status.kv = true := hkv
  rw [exec_kexp_of_valid hkv, andThen_next, exec_kexp_of_valid hkv', State.writeRoundKeys_key,
    State.writeRoundKeys_twice]

/-- Everything a command that expands the key can do: it takes `EUNINIT`, or it writes the round keys over a change of
`ST`, which for `KEXP` is none. -/
theorem keyed_next_cases {i : Instr} {s t : State} (hi : i ∈ [.kexp, .enc, .dec]) (h : exec i s = .next t) :
    t = s.takeFault .euninit ∨
    ∃ f, (i = .kexp → f = id) ∧ t = (s.mapSt f).writeRoundKeys (keyExpansion Config.boxes s.key) := by
  have guard {v : Bool} {g : State → State} (f : Word → Word) (hf : i = .kexp → f = id)
      (hg : g s = (s.mapSt f).writeRoundKeys (keyExpansion Config.boxes s.key))
      (h : requireValid v g s = .next t) : t = s.takeFault .euninit ∨
        ∃ f, (i = .kexp → f = id) ∧ t = (s.mapSt f).writeRoundKeys (keyExpansion Config.boxes s.key) :=
    (requireValid_next h).elim (fun ⟨_, ht⟩ => .inr ⟨f, hf, ht.trans hg⟩) (fun ⟨_, ht⟩ => .inl ht)
  simp only [List.mem_cons, List.not_mem_nil, or_false] at hi
  rcases hi with rfl | rfl | rfl
  · exact guard id (fun _ => rfl) rfl h
  · simp only [exec, execEnc] at h
    exact guard (encrypt Config.boxes · s.key) nofun rfl h
  · simp only [exec, execDec] at h
    exact guard (decrypt Config.boxes · s.key) nofun rfl h

end Sys2Proof.Machine

namespace Sys2Proof.Safety

open Sys2Proof.Machine

/-- Settles O28: the guard is `KV` alone, and the write touches neither `KEY` nor `KV`. -/
theorem kexpExpandsTheKey : Obligations.KexpExpandsTheKey := by
  refine ⟨by decide, raisesEfield_of_format_z decodeFields_kexp, fun _ => exec_kexp_of_valid,
    fun s h => requireValid_of_false h _ s, fun _ => andThen_kexp_kexp, fun s t hkv h => ?_,
    by decide, by decide, by decide⟩
  rw [exec_kexp_of_valid hkv] at h
  cases h
  exact keyExpansion_k0 _ _

/-- Settles O39: the command takes `EUNINIT` or writes the round keys over a change of `ST`, and neither touches
anything the frame names. -/
theorem keyedCommandsFrame : Obligations.KeyedCommandsFrame := by
  intro i s t hi h
  rcases keyed_next_cases hi h with rfl | ⟨f, hf, rfl⟩
  · exact ⟨rfl, rfl, rfl, rfl, rfl, rfl, fun _ => rfl, .inr rfl⟩
  · exact ⟨rfl, rfl, rfl, rfl, rfl, rfl, fun hk => congrFun (hf hk) s.st, .inl ⟨rfl, rfl⟩⟩

end Sys2Proof.Safety
end

section
/-! PROOFS. The cipher engine (43_cipher_engine.md R100 to R107). Each stage of `Decrypt` undoes a stage of `Encrypt`;
`ENC` and `DEC` are one guarded write; and a run of round commands folds their functions over `ST`, so that the stages
of R100 and R101 are the runs of R104 and R107 by definition. -/

namespace Sys2Proof.Machine

/-! ### The round trip -/

/-- The stages of R101 undo those of R100, the last one first. -/
theorem decryptStages_encryptStages (c : Config.Boxes) (rk : RoundKeys) (p : Word) :
    decryptStages c rk (encryptStages c rk p) = p := by
  simp only [decryptStages, encryptStages, keyMix_keyMix, shiftRow_shiftRow, invSubNib_subNib, invMixCol_mixCol]

theorem encryptStages_decryptStages (c : Config.Boxes) (rk : RoundKeys) (x : Word) :
    encryptStages c rk (decryptStages c rk x) = x := by
  simp only [decryptStages, encryptStages, keyMix_keyMix, shiftRow_shiftRow, subNib_invSubNib, mixCol_invMixCol]

theorem decrypt_encrypt (c : Config.Boxes) (p k : Word) : decrypt c (encrypt c p k) k = p :=
  decryptStages_encryptStages c _ p

theorem encrypt_decrypt (c : Config.Boxes) (x k : Word) : encrypt c (decrypt c x k) k = x :=
  encryptStages_decryptStages c _ x

/-- Settles O53: both directions use one key schedule, and each stage of one is undone by a stage of the other. -/
theorem decryptInvertsEncrypt : Obligations.DecryptInvertsEncrypt :=
  fun c k => ⟨(decrypt_encrypt c · k), (encrypt_decrypt c · k),
    Function.bijective_iff_has_inverse.mpr ⟨(decrypt c · k), (decrypt_encrypt c · k), (encrypt_decrypt c · k)⟩⟩

/-! ### The two engine commands -/

/-- The write of R102 and R103: `ST` through a cipher `f` under `KEY`, and the round keys of `KEY` into `RK`. -/
def State.cipherSt (f : Word → Word → Word) (s : State) : State :=
  (s.mapSt (f · s.key)).writeRoundKeys (keyExpansion Config.boxes s.key)

/-- The write keeps `KEY`, so a second one runs under the same key. -/
theorem State.cipherSt_cipherSt (f g : Word → Word → Word) (s : State) :
    (s.cipherSt f).cipherSt g = s.cipherSt fun b k => g (f b k) k := rfl

/-- `i` is the engine command of the cipher `f`: one write behind the guard of `KV` and `SV`, `RKV` not asked for. -/
def RunsCipher (i : Instr) (f : Word → Word → Word) : Prop :=
  ∀ s, exec i s = requireValid (s.status.kv && s.status.sv) (State.cipherSt f) s

theorem enc_runsCipher : RunsCipher .enc (encrypt Config.boxes) := fun _ => rfl

theorem dec_runsCipher : RunsCipher .dec (decrypt Config.boxes) := fun _ => rfl

section RunsCipher

variable {i j : Instr} {f g : Word → Word → Word} {s : State}

theorem RunsCipher.exec_of_valid (h : RunsCipher i f) (hkv : s.status.kv = true) (hsv : s.status.sv = true) :
    exec i s = .next (s.cipherSt f) :=
  (h s).trans (requireValid_of_true (Bool.and_eq_true_iff.mpr ⟨hkv, hsv⟩) _ s)

theorem RunsCipher.exec_of_not_valid (h : RunsCipher i f) (hv : s.status.kv = false ∨ s.status.sv = false) :
    exec i s = .next (s.takeFault .euninit) :=
  (h s).trans (requireValid_of_false (Bool.and_eq_false_iff.mpr hv) _ s)

/-- Two engine commands in turn are the two ciphers in turn, under the one key. -/
theorem RunsCipher.andThen_exec (hi : RunsCipher i f) (hj : RunsCipher j g) (hkv : s.status.kv = true)
    (hsv : s.status.sv = true) :
    andThen (exec i s) (exec j) = .next (s.cipherSt fun b k => g (f b k) k) := by
  rw [hi.exec_of_valid hkv hsv, andThen_next, hj.exec_of_valid (s := s.cipherSt f) hkv hsv, State.cipherSt_cipherSt]

end RunsCipher

/-! ### A run of round commands -/

/-- What a round command does to `ST` where the flags it asks for are 1 (R82 to R87). -/
def roundFn (rk : RoundKeys) : Instr → Word → Word
  | .ark n, b => ((rk.get? n).map (keyMix b)).getD b
  | .subnib, b => subNib Config.boxes b
  | .isubnib, b => invSubNib Config.boxes b
  | .shrow, b => shiftRow b
  | .mixcol, b => mixCol b
  | .imixcol, b => invMixCol b
  | _, b => b

/-- A round command that some word spells. -/
def isRoundWord (i : Instr) : Bool := isRound i && i.wellFormed

theorem isRoundWord_ark {n : BitVec 2} (h : isRoundWord (.ark n) = true) : n ≠ 3 := by
  simpa [isRoundWord, isRound, Instr.wellFormed] using h

theorem wellFormed_of_isRoundWord {i : Instr} (h : isRoundWord i = true) : i.wellFormed = true :=
  (Bool.and_eq_true_iff.mp h).2

theorem exec_round_of_valid {i : Instr} (hi : isRoundWord i = true) {s : State} (hsv : s.status.sv = true)
    (hrkv : s.status.rkv = true) : exec i s = .next (s.mapSt (roundFn s.rk i)) := by
  cases i with
  | ark n =>
    obtain ⟨k, hk⟩ := s.rk.exists_get?_eq_some (isRoundWord_ark hi)
    simp [exec_ark_of_valid hsv hrkv hk, roundFn, hk, State.mapSt]
  | subnib => exact exec_subnib_of_valid hsv
  | isubnib => exact exec_isubnib_of_valid hsv
  | shrow => exact exec_shrow_of_valid hsv
  | mixcol => exact exec_mixcol_of_valid hsv
  | imixcol => exact exec_imixcol_of_valid hsv
  | nop | ldk | lds | kexp | enc | dec | gfmul => cases hi

/-- Without a block every round command faults (R16, R149). -/
theorem exec_round_of_no_block {i : Instr} (hi : isRoundWord i = true) {s : State} (hsv : s.status.sv = false) :
    exec i s = .next (s.takeFault .euninit) := by
  cases i with
  | ark n => exact exec_ark_of_not_valid (isRoundWord_ark hi) (.inl hsv)
  | subnib | isubnib | shrow | mixcol | imixcol => exact requireValid_of_false hsv _ s
  | nop | ldk | lds | kexp | enc | dec | gfmul => cases hi

end Sys2Proof.Machine

namespace Sys2Proof.Safety

open Sys2Proof.Machine

theorem stepWord_encode {i : Instr} (hi : i.wellFormed = true) {s : State} (he : s.status.err = false) :
    stepWord (encode i) s = exec i s := stepWord_of_command he (decodeInvertsEncode i hi)

/-- A run goes on from what its first command answers. -/
theorem runWords_encode_cons {i : Instr} (hi : i.wellFormed = true) {s t : State} (he : s.status.err = false)
    (h : exec i s = .next t) (is : List Instr) :
    runWords ((i :: is).map encode) s = runWords (is.map encode) t := by
  rw [List.map_cons, runWords_cons, stepWord_encode hi he, h, andThen_next]

/-- After a fault the rest of a run is discarded (R143). -/
theorem runWords_of_err {s : State} (he : s.status.err = true) (ws : List CmdWord) : runWords ws s = .next s := by
  induction ws with
  | nil => rfl
  | cons w ws ih => rw [runWords_cons, stepWord_of_err he, andThen_next, ih]

/-- A run whose first command faults ends in the state that fault leaves. -/
theorem runWords_encode_of_fault {i : Instr} (hi : i.wellFormed = true) {s : State} {c : FaultCode}
    (he : s.status.err = false) (h : exec i s = .next (s.takeFault c)) (is : List Instr) :
    runWords ((i :: is).map encode) s = .next (s.takeFault c) := by
  rw [runWords_encode_cons hi he h, runWords_of_err rfl]

/-- Round commands touch neither `RK` nor a flag, so a run of them folds their functions over `ST`. -/
theorem runWords_rounds {is : List Instr} (his : ∀ i ∈ is, isRoundWord i = true) {s : State}
    (he : s.status.err = false) (hsv : s.status.sv = true) (hrkv : s.status.rkv = true) :
    runWords (is.map encode) s = .next (s.mapSt fun b => is.foldl (fun x i => roundFn s.rk i x) b) := by
  induction is generalizing s with
  | nil => rfl
  | cons i is ih =>
    obtain ⟨hi, his⟩ := List.forall_mem_cons.mp his
    rw [runWords_encode_cons (wellFormed_of_isRoundWord hi) he (exec_round_of_valid hi hsv hrkv),
      ih his (s := s.mapSt (roundFn s.rk i)) he hsv hrkv]
    rfl

section KeyedRun

/-! The three runs of R104 and R107: `KEXP` and then round commands. -/

variable {is : List Instr} {s : State} (he : s.status.err = false)
include he

/-- With key and block, the run of `KEXP` and a cipher's stages is that cipher's write. -/
theorem runWords_kexp_rounds {f : Word → Word → Word} (his : ∀ i ∈ is, isRoundWord i = true)
    (hf : ∀ b k, is.foldl (fun x i => roundFn (keyExpansion Config.boxes k) i x) b = f b k)
    (hkv : s.status.kv = true) (hsv : s.status.sv = true) :
    runWords ((.kexp :: is).map encode) s = .next (s.cipherSt f) := by
  rw [runWords_encode_cons rfl he (exec_kexp_of_valid hkv),
    runWords_rounds his (s := s.writeRoundKeys (keyExpansion Config.boxes s.key)) he hsv rfl]
  simp only [State.writeRoundKeys_rk, hf]
  rfl

/-- Without a key, `KEXP` faults. -/
theorem runWords_kexp_of_no_key (hkv : s.status.kv = false) :
    runWords ((.kexp :: is).map encode) s = .next (s.takeFault .euninit) :=
  runWords_encode_of_fault (i := .kexp) rfl he (requireValid_of_false hkv _ s) is

/-- With a key and no block, `KEXP` writes the round keys and the first round command faults. -/
theorem runWords_kexp_of_no_block {i : Instr} (hi : isRoundWord i = true) (hkv : s.status.kv = true)
    (hsv : s.status.sv = false) : runWords ((.kexp :: i :: is).map encode) s =
      .next ((s.writeRoundKeys (keyExpansion Config.boxes s.key)).takeFault .euninit) := by
  rw [runWords_encode_cons rfl he (exec_kexp_of_valid hkv)]
  exact runWords_encode_of_fault (s := s.writeRoundKeys _) (wellFormed_of_isRoundWord hi) he
    (exec_round_of_no_block hi hsv) is

end KeyedRun

/-- R104 and R107 for one engine command `e` and the round commands `i :: is` of its stages. With a key and no block
both fault, but the run has executed `KEXP`. -/
theorem runWords_kexp_rounds_eq_engine {e i : Instr} {is : List Instr} {f : Word → Word → Word}
    (hwf : e.wellFormed = true) (hcipher : RunsCipher e f) (his : ∀ j ∈ i :: is, isRoundWord j = true)
    (hf : ∀ b k, (i :: is).foldl (fun x j => roundFn (keyExpansion Config.boxes k) j x) b = f b k)
    {s : State} (he : s.status.err = false) :
    (s.status.kv = true → s.status.sv = true → ∃ t, runWords ((.kexp :: i :: is).map encode) s = .next t ∧
      stepWord (encode e) s = .next t ∧ t.status.err = false) ∧
    (s.status.kv = false → runWords ((.kexp :: i :: is).map encode) s = .next (s.takeFault .euninit) ∧
      stepWord (encode e) s = .next (s.takeFault .euninit)) ∧
    (s.status.kv = true → s.status.sv = false → runWords ((.kexp :: i :: is).map encode) s =
        .next ((s.writeRoundKeys (keyExpansion Config.boxes s.key)).takeFault .euninit) ∧
      stepWord (encode e) s = .next (s.takeFault .euninit)) := by
  rw [stepWord_encode hwf he]
  exact ⟨fun hkv hsv => ⟨_, runWords_kexp_rounds he his hf hkv hsv, hcipher.exec_of_valid hkv hsv, he⟩,
    fun hkv => ⟨runWords_kexp_of_no_key he hkv, hcipher.exec_of_not_valid (.inl hkv)⟩,
    fun hkv hsv => ⟨runWords_kexp_of_no_block he (his i List.mem_cons_self) hkv hsv,
      hcipher.exec_of_not_valid (.inr hsv)⟩⟩

/-! ### The statements -/

/-- Settles O35: `ENC` is the one guarded write, and `DEC` after it finds the same key. -/
theorem encEncryptsTheBlock : Obligations.EncEncryptsTheBlock := by
  have hex : encrypt Config.defaultBoxes 0x1234 0xA73B = 0x9B24 := by decide
  refine ⟨by decide, raisesEfield_of_format_z decodeFields_enc, fun _ => enc_runsCipher.exec_of_valid,
    fun _ => enc_runsCipher.exec_of_not_valid, fun _ => enc_runsCipher.andThen_exec enc_runsCipher, ?_,
    fun s hkv hsv => ?_, by decide, hex, by decide, by decide⟩
  · rw [hex]
    decide
  · rw [enc_runsCipher.andThen_exec dec_runsCipher hkv hsv]
    simp only [decrypt_encrypt]
    rfl

/-- Settles O36: `DEC` is the one guarded write, its first round key is `KEY`, and `ENC` after it finds the same
key. -/
theorem decDecryptsTheBlock : Obligations.DecDecryptsTheBlock := by
  refine ⟨by decide, raisesEfield_of_format_z decodeFields_dec, fun _ => dec_runsCipher.exec_of_valid,
    fun _ => dec_runsCipher.exec_of_not_valid, fun s t hkv hsv h => ?_, fun s hkv hsv => ?_, by decide, by decide⟩
  · rw [dec_runsCipher.exec_of_valid hkv hsv] at h
    cases h
    exact keyExpansion_k0 _ _
  · rw [dec_runsCipher.andThen_exec enc_runsCipher hkv hsv]
    simp only [encrypt_decrypt]
    rfl

/-- Settles O54: the stages of R100 are the functions of the eight round commands of R104, in their order. -/
theorem encEqualsNineCommands : Obligations.EncEqualsNineCommands := fun _ =>
  runWords_kexp_rounds_eq_engine rfl enc_runsCipher (by decide) fun _ _ => rfl

/-- Settles O55: the stages of R101 are the functions of the eight round commands of R107, in their order. -/
theorem decEqualsNineCommands : Obligations.DecEqualsNineCommands := fun _ =>
  runWords_kexp_rounds_eq_engine rfl dec_runsCipher (by decide) fun _ _ => rfl

end Sys2Proof.Safety
end

section
/-! PROOFS. The loads and `NOP` (44_load_and_control.md R115 to R117). Each is one unguarded write, so it never faults;
that `NOP` alone is without effect is read from the reset state, which every other command changes. -/

namespace Sys2Proof.Machine

/-! ### The words of the loads -/

/-- A command word as a sum: its opcode with the operand field zero, and its operand field (R40). -/
theorem cmdWord_eq_add (op : Nibble) (imm : Word) : op ++ imm = op ++ (0 : Word) + imm.setWidth 20 := by
  apply BitVec.eq_of_toNat_eq
  have hop := op.isLt
  have himm := imm.isLt
  simp only [BitVec.toNat_add, cmdWord_toNat (op ++ _), opField_append, immField_append, BitVec.toNat_setWidth,
    BitVec.ofNat_eq_ofNat, BitVec.toNat_ofNat]
  omega

theorem encode_ldk (imm16 : Word) : encode (.ldk imm16) = 0x10000 + imm16.setWidth 20 := cmdWord_eq_add 0x1 imm16

theorem encode_lds (imm16 : Word) : encode (.lds imm16) = 0x20000 + imm16.setWidth 20 := cmdWord_eq_add 0x2 imm16

/-! ### The effects -/

theorem exec_nop (s : State) : exec .nop s = .next s := rfl

theorem exec_ldk (imm16 : Word) (s : State) :
    exec (.ldk imm16) s = .next { s with key := imm16, status := s.status.keyLoaded } := rfl

theorem exec_lds (imm16 : Word) (s : State) :
    exec (.lds imm16) s = .next { s with st := imm16, status := s.status.blockLoaded } := rfl

theorem exec_gfmul (a b : Nibble) (s : State) :
    exec (.gfmul a b) s = .next { s with gp := gfMul a b, status := s.status.productWritten } := rfl

/-- While `RKV` is 0 no port shows a round key, and no command of R87 can use one (R16, R22). -/
theorem roundKeys_withheld_of_not_valid {s : State} (h : s.status.rkv = false) :
    s.ports.rk0O = none ∧ s.ports.rk1O = none ∧ s.ports.rk2O = none ∧
    ∀ n : BitVec 2, n ≠ 3 → exec (.ark n) s = .next (s.takeFault .euninit) := by
  have hport (k : Word) : (if s.status.rkv then some k else none) = none := by rw [h]; rfl
  exact ⟨hport _, hport _, hport _, fun _ hn => exec_ark_of_not_valid hn (.inr h)⟩

/-- Every command but `NOP` changes the reset state: its flags are all 0, so a command takes a fault or sets a flag. -/
theorem eq_nop_of_exec_reset {i : Instr} (h : exec i State.reset = .next State.reset) : i = .nop := by
  have sets (flag : Status → Bool) (h0 : flag Status.reset = false) {t : State} (h1 : flag t.status = true)
      (ht : State.reset = t) : i = .nop := by
    subst ht
    exact absurd h1 (by simp [h0])
  rcases exec_next_cases h with ⟨_, ht⟩ | ⟨hi, _⟩ | ⟨_, _, ht⟩ | ⟨_, _, ht⟩ | ⟨_, hsv, _⟩ | ⟨_, hkv, _⟩ | ⟨_, hkv, _⟩ |
    ⟨_, _, _, ht⟩
  · exact sets Status.err rfl rfl ht
  · exact hi
  · exact sets Status.kv rfl rfl ht
  · exact sets Status.sv rfl rfl ht
  · cases hsv
  · cases hkv
  · cases hkv
  · exact sets Status.gv rfl rfl ht

end Sys2Proof.Machine

namespace Sys2Proof.Safety

open Sys2Proof.Machine

/-- The word of `NOP` changes no state: with `ERR = 1` it is discarded, else it executes (R115, R143). -/
theorem stepWord_nop (s : State) : stepWord 0x00000 s = .next s := by
  cases he : s.status.err with
  | true => exact stepWord_of_err he _
  | false => exact stepWord_encode (i := .nop) rfl he

/-- Settles O25: a command without effect leaves the reset state, so it is `NOP`, which has one word. -/
theorem nopDoesNothing : Obligations.NopDoesNothing := by
  refine ⟨by decide, raisesEfield_of_format_z decodeFields_nop, exec_nop, fun w i hw hi => ?_, stepWord_nop⟩
  obtain ⟨_, henc⟩ := encodeInvertsDecode w i hw
  rw [← henc, eq_nop_of_exec_reset (hi State.reset)]
  rfl

/-- Settles O26: the load is one write, and the `RKV` it clears guards every use of a round key. -/
theorem ldkLoadsTheKey : Obligations.LdkLoadsTheKey := by
  refine ⟨fun k => ⟨encode_ldk k, decode_append 0x1 k⟩, exec_ldk, fun k s t h => ?_, by decide⟩
  rw [exec_ldk] at h
  cases h
  exact roundKeys_withheld_of_not_valid rfl

/-- Settles O27: the load is one write, and the State of a block is its nibbles in order. -/
theorem ldsLoadsTheBlock : Obligations.LdsLoadsTheBlock :=
  ⟨fun b => ⟨encode_lds b, decode_append 0x2 b⟩, exec_lds, fun x y => ⟨hi_ofBytes x y, lo_ofBytes x y⟩, by decide,
    by decide⟩

/-- Settles O40: each command is one write of its own destination and flags. -/
theorem loadsAndProductFrame : Obligations.LoadsAndProductFrame := by
  refine ⟨fun s t h => ?_, fun k s t h => ?_, fun b s t h => ?_, fun a b s t h => ?_⟩
  · rw [exec_nop] at h
    cases h
    rfl
  · rw [exec_ldk] at h
    cases h
    exact ⟨rfl, rfl, rfl, rfl, rfl, rfl, rfl, rfl⟩
  · rw [exec_lds] at h
    cases h
    exact ⟨rfl, rfl, rfl, rfl, rfl, rfl, rfl, rfl, rfl⟩
  · rw [exec_gfmul] at h
    cases h
    exact ⟨rfl, rfl, rfl, rfl, rfl, rfl, rfl, rfl, rfl⟩

end Sys2Proof.Safety
end

section
/-! PROOFS. Faults (60_exceptions.md R140 to R149): which fault a word raises, that a fault writes `STATUS`
alone, that a faulted core discards every word, and that only reset clears the fault. -/

namespace Sys2Proof

/-! ### Which words the decoder rejects, and why -/

theorem checkFields_ne_eopcode (f : Format) (imm : Word) (i : Instr) :
    checkFields f imm i ≠ .rejected .eopcode := by
  cases hl : fieldsLegal f imm with
  | true => simp [checkFields_of_legal hl]
  | false => simp [checkFields_of_illegal hl]

/-- The reserved opcodes are 13, 14 and 15, and no operand field of another opcode is rejected as one (R45). -/
theorem decodeFields_eq_eopcode_iff (op : Nibble) (imm : Word) :
    decodeFields op imm = .rejected .eopcode ↔ 13 ≤ op.toNat := by
  rcases nibble_cases op with rfl | rfl | rfl | rfl | rfl | rfl | rfl | rfl | rfl | rfl | rfl | rfl | rfl | rfl | rfl |
    rfl
  iterate 13 exact iff_of_false (checkFields_ne_eopcode _ imm _) (by decide)
  all_goals exact iff_of_true rfl (by decide)

end Sys2Proof

namespace Sys2Proof.Safety

open Sys2Proof.Machine

/-! ### The conditions of R149 on the fields of the word -/

theorem toNat_div_eq_opField (w : CmdWord) : w.toNat / 65536 = (opField w).toNat := by
  have himm := (immField w).isLt
  rw [cmdWord_toNat]
  omega

theorem toNat_mod_eq_immField (w : CmdWord) : w.toNat % 65536 = (immField w).toNat := by
  have himm := (immField w).isLt
  rw [cmdWord_toNat]
  omega

/-- Under an opcode of the map the illegal operand fields of R149 are, as numbers, those from the count of the legal
ones on. -/
theorem fieldFault_iff {w : CmdWord} (h : ¬ 13 ≤ (opField w).toNat) :
    fieldFault w = true ↔ legalFields (opField w).toNat ≤ (immField w).toNat := by
  have himm := (immField w).isLt
  unfold fieldFault
  rw [toNat_div_eq_opField, toNat_mod_eq_immField]
  generalize (immField w).toNat = imm at himm ⊢
  have z : decide (imm ≠ 0) = true ↔ 1 ≤ imm := decide_eq_true_iff.trans Nat.one_le_iff_ne_zero.symm
  have all : false = true ↔ 65536 ≤ imm := iff_of_false nofun (Nat.not_le.mpr himm)
  have n : decide (3 ≤ imm) = true ↔ 3 ≤ imm := decide_eq_true_iff
  have g : decide (256 ≤ imm) = true ↔ 256 ≤ imm := decide_eq_true_iff
  rcases nibble_cases (opField w) with ho | ho | ho | ho | ho | ho | ho | ho | ho | ho | ho | ho | ho | ho | ho | ho <;>
    rw [ho] at h ⊢
  exacts [z, all, all, z, n, z, z, z, z, z, z, z, g, absurd (by decide) h, absurd (by decide) h, absurd (by decide) h]

/-- A word that the decoder rejects raises the decoder's reason, whatever the flags (R43, R141). -/
theorem faultOf_of_rejected {w : CmdWord} {r : Rejection} (h : decode w = .rejected r) (f : Status) :
    faultOf w f = some (FaultCode.ofRejection r) := by
  have hop := decodeFields_eq_eopcode_iff (opField w) (immField w)
  have himm := decodeFields_isSome_iff (opField w) (immField w)
  rw [← decode, h] at hop himm
  unfold faultOf
  rw [toNat_div_eq_opField]
  cases r with
  | eopcode => exact if_pos (hop.mp rfl)
  | efield =>
    have hlt : ¬ 13 ≤ (opField w).toNat := mt hop.mpr nofun
    have hbad : legalFields (opField w).toNat ≤ (immField w).toNat := Nat.not_lt.mp (mt himm.mpr nofun)
    rw [if_neg hlt, if_pos ((fieldFault_iff hlt).mpr hbad)]
    rfl

/-- A word that decodes can raise only `EUNINIT`, and does where its command's flags are not all 1 (R149). -/
theorem faultOf_of_command {w : CmdWord} {i : Instr} (h : decode w = .command i) (f : Status) :
    faultOf w f = if flagsPresent i.opcode f then none else some .euninit := by
  have hop := decodeFields_eq_eopcode_iff (opField w) (immField w)
  have himm := decodeFields_isSome_iff (opField w) (immField w)
  rw [← decode, h] at hop himm
  have hlt : ¬ 13 ≤ (opField w).toNat := mt hop.mpr nofun
  have hlegal : ¬ legalFields (opField w).toNat ≤ (immField w).toNat := Nat.not_le.mpr (himm.mp rfl)
  obtain ⟨_, hi, _⟩ := decodeFields_eq_command h
  unfold faultOf
  rw [toNat_div_eq_opField, if_neg hlt, if_neg (mt (fieldFault_iff hlt).mp hlegal), BitVec.ofNat_toNat,
    BitVec.setWidth_eq, hi]

/-! ### What the commands do behind those conditions -/

/-- Every command that a word spells is one effect behind the guard of the flags R149 names, and the effect raises no
fault. -/
theorem exec_eq_requireValid {i : Instr} (hi : i.wellFormed = true) (s : State) :
    ∃ f : State → State, exec i s = requireValid (flagsPresent i.opcode s.status) f s ∧
      (f s).status.err = s.status.err := by
  cases i with
  | nop => exact ⟨id, rfl, rfl⟩
  | ldk k => exact ⟨fun t => { t with key := k, status := t.status.keyLoaded }, rfl, rfl⟩
  | lds b => exact ⟨fun t => { t with st := b, status := t.status.blockLoaded }, rfl, rfl⟩
  | gfmul a b => exact ⟨fun t => { t with gp := gfMul a b, status := t.status.productWritten }, rfl, rfl⟩
  | ark n =>
    obtain ⟨k, hk⟩ := s.rk.exists_get?_eq_some (by simpa [Instr.wellFormed] using hi)
    exact ⟨_, execArk_of_some hk, rfl⟩
  | kexp | subnib | isubnib | shrow | mixcol | imixcol => exact ⟨_, rfl, rfl⟩
  | enc => exact ⟨_, enc_runsCipher s, rfl⟩
  | dec => exact ⟨_, dec_runsCipher s, rfl⟩

/-- A word takes the fault that its conditions give (R141, R142). -/
theorem stepWord_of_faultOf_eq_some {w : CmdWord} {s : State} {c : FaultCode} (he : s.status.err = false)
    (h : faultOf w s.status = some c) : stepWord w s = .next (s.takeFault c) := by
  cases hd : decode w with
  | rejected r =>
    rw [faultOf_of_rejected hd, Option.some_inj] at h
    rw [stepWord_of_rejected he hd, h]
  | command i =>
    obtain ⟨hwf, _⟩ := encodeInvertsDecode w i hd
    obtain ⟨f, hf, _⟩ := exec_eq_requireValid hwf s
    rw [faultOf_of_command hd] at h
    rw [stepWord_of_command he hd, hf]
    cases hv : flagsPresent i.opcode s.status with
    | true => simp [hv] at h
    | false =>
      obtain rfl : FaultCode.euninit = c := by simpa [hv] using h
      exact requireValid_of_false rfl f s

/-- A word whose conditions give no fault decodes, and its command executes and raises none (R149). -/
theorem stepWord_of_faultOf_eq_none {w : CmdWord} {s : State} (he : s.status.err = false)
    (h : faultOf w s.status = none) :
    ∃ i t, decode w = .command i ∧ exec i s = .next t ∧ stepWord w s = .next t ∧ t.status.err = false := by
  cases hd : decode w with
  | rejected r =>
    rw [faultOf_of_rejected hd] at h
    cases h
  | command i =>
    obtain ⟨hwf, _⟩ := encodeInvertsDecode w i hd
    obtain ⟨f, hf, herr⟩ := exec_eq_requireValid hwf s
    have hv : flagsPresent i.opcode s.status = true := by simpa [faultOf_of_command hd] using h
    have hx : exec i s = .next (f s) := hf.trans (requireValid_of_true hv f s)
    exact ⟨i, f s, rfl, hx, (stepWord_of_command he hd).trans hx, herr.trans he⟩

/-! ### A faulted core -/

/-- A step of a faulted core keeps `STATUS` but at a reset edge: it does nothing, idles, or discards a word (R143,
R144). -/
theorem status_of_step_of_err {s t : State} (he : s.status.err = true) (h : step s = .next t) :
    (∃ e rest, s.inputs = e :: rest ∧ e.rst = true) ∨ t.status = s.status := by
  rcases step_next_cases h with ⟨_, rfl⟩ | ⟨e, rest, hi, ⟨hr, _⟩ | ⟨_, _, rfl⟩ | ⟨_, _, hw⟩⟩
  · exact .inr rfl
  · exact .inl ⟨e, rest, hi, hr⟩
  · exact .inr rfl
  · cases (stepWord_of_err (s := { s with inputs := rest }) he e.cmd).symm.trans hw
    exact .inr rfl

/-! ### The statements -/

/-- Settles O6: the decoder's two reasons are the first two conditions, and the guard of the flags is the third. -/
theorem faultsFollowPriority : Obligations.FaultsFollowPriority := by
  refine ⟨fun s w he => ⟨fun c => stepWord_of_faultOf_eq_some he, stepWord_of_faultOf_eq_none he⟩,
    fun f => faultOf_of_rejected (r := .eopcode) (by decide) f, fun f _ => faultOf_of_rejected decode_index_three f,
    fun f hkv _ => ?_⟩
  have hd : decode 0xA0000 = .command .enc := by decide
  have hflags : flagsPresent (Instr.opcode .enc) f = false := Bool.and_eq_false_iff.mpr (.inl hkv)
  rw [faultOf_of_command hd, hflags]
  rfl

/-- Settles O7: the step takes the edge and then the fault, which is one write to `STATUS`. -/
theorem faultWritesErrAndEcodeOnly : Obligations.FaultWritesErrAndEcodeOnly := by
  intro s w c he hc
  have hstep := step_of_presentWord (stepWord_of_faultOf_eq_some he hc) s.inputs
  refine ⟨s.takeFault c, hstep, ?_, rfl⟩
  cases c <;> rfl

/-- Settles O8: each word of the list is discarded, so the run ends where it began, with `ERR = 1`. -/
theorem faultedCoreDiscardsEveryWord : Obligations.FaultedCoreDiscardsEveryWord :=
  fun _ ws he => ⟨runWords_of_err he ws, he⟩

/-- Settles O9: at every other edge a faulted core keeps `STATUS`, and a reset edge writes all of it. -/
theorem onlyResetClearsTheFault : Obligations.OnlyResetClearsTheFault := by
  constructor
  · intro s t he h ht
    refine (status_of_step_of_err he h).resolve_right fun hst => ?_
    rw [hst, he] at ht
    cases ht
  · intro s v w rest hi
    exact ⟨_, (step_of_edge hi).trans (clockEdge_of_rst rfl _), rfl, rfl, rfl, rfl, rfl⟩

end Sys2Proof.Safety
end

section
/-! PROOFS. Reset, the clock edge and the order after reset (70_reset_and_hazards.md R160 to R168): what a step does at
each kind of edge, that no word can tell the past before a reset, and which flags a run of commands must set first. -/

namespace Sys2Proof.Machine

/-! ### The step at each kind of edge -/

theorem step_of_rst {s : State} {e : Edge} {rest : List Edge} (hi : s.inputs = e :: rest) (hr : e.rst = true) :
    step s = .next { State.reset with inputs := rest } :=
  (step_of_edge hi).trans (clockEdge_of_rst hr _)

theorem step_of_idle {s : State} {e : Edge} {rest : List Edge} (hi : s.inputs = e :: rest) (hr : e.rst = false)
    (hv : e.cmdValid = false) : step s = .next { s with inputs := rest } :=
  (step_of_edge hi).trans (clockEdge_of_idle hr hv _)

theorem step_of_command {s : State} {w : CmdWord} {i : Instr} {rest : List Edge} (hi : s.inputs = presentWord w :: rest)
    (he : s.status.err = false) (hd : decode w = .command i) : step s = exec i { s with inputs := rest } := by
  rw [step_of_edge hi, clockEdge_presentWord]
  exact stepWord_of_command he hd

/-- Every edge answers a next state, in every state. -/
theorem clockEdge_answers_next (e : Edge) (s : State) : ∃ t, clockEdge e s = .next t := by
  cases hr : e.rst with
  | true => exact ⟨_, clockEdge_of_rst hr s⟩
  | false =>
    cases hv : e.cmdValid with
    | true => exact clockEdge_of_command hr hv s ▸ stepWord_answers_next e.cmd s
    | false => exact ⟨_, clockEdge_of_idle hr hv s⟩

/-- Every step answers a next state. -/
theorem step_answers_next (s : State) : ∃ t, step s = .next t := by
  cases hi : s.inputs with
  | nil => exact ⟨s, step_of_no_inputs hi⟩
  | cons e rest => exact step_of_edge hi ▸ clockEdge_answers_next e _

/-- A run goes on from what its first step answers. -/
theorem core_run_succ_of_step {s t : State} (h : step s = .next t) (n : Nat) : core.run (n + 1) s = core.run n t := by
  rw [core_run_succ, h]
  rfl

/-- A word in any window of at least its 20 bits is the one the host presents next (R40). -/
theorem State.withFetchWord_inputs (s : State) {nbits : Nat} (h : 20 ≤ nbits) (w : CmdWord) :
    (s.withFetchWord nbits w.toNat).inputs = presentWord w :: s.inputs := by
  have hlt : w.toNat < 2 ^ nbits := w.isLt.trans_le (Nat.pow_le_pow_right (by decide) h)
  simp [State.withFetchWord, placeWord, Nat.mod_eq_of_lt hlt]

/-! ### `STATUS` after reset, and the flags that only reset clears -/

theorem Status.reset_toByte : Status.reset.toByte = 0x00 := rfl

theorem State.ports_of_status_reset {s : State} (h : s.status = Status.reset) :
    s.ports = { keyO := none, stO := none, rk0O := none, rk1O := none, rk2O := none, gpO := none,
                statusO := 0x00, cmdReady := true } := by
  rw [State.ports, h, Status.reset_toByte]
  rfl

/-- None of the flags that only reset clears is 1 in `f` and 0 in `g`. `RKV` is not among them: `LDK` clears it. -/
def Status.Keeps (f g : Status) : Prop :=
  (f.kv = true → g.kv = true) ∧ (f.sv = true → g.sv = true) ∧ (f.gv = true → g.gv = true) ∧
    (f.err = true → g.err = true)

theorem Status.Keeps.refl (f : Status) : f.Keeps f := ⟨id, id, id, id⟩

theorem Status.keeps_faulted (f : Status) (c : FaultCode) : f.Keeps (f.faulted c) := ⟨id, id, id, fun _ => rfl⟩

end Sys2Proof.Machine

namespace Sys2Proof.Safety

open Sys2Proof.Machine

theorem stepWord_keeps_flags {w : CmdWord} {s t : State} (h : stepWord w s = .next t) : s.status.Keeps t.status := by
  rcases stepWord_next_cases h with ⟨_, rfl⟩ | ⟨_, c, rfl⟩ | ⟨_, i, _, hx⟩
  · exact .refl _
  · exact Status.keeps_faulted _ c
  · obtain ⟨hkv, hsv, hgv, herr, _⟩ := flagsChangeOnlyAsListed i s t hx
    exact ⟨hkv, hsv, hgv, herr⟩

/-! ### What a run can tell of the past -/

/-- No list of words reads the host's moves, and none takes or adds one. -/
theorem runWords_with_inputs {ws : List CmdWord} {s t : State} (x : List Edge) (h : runWords ws s = .next t) :
    runWords ws { s with inputs := x } = .next { t with inputs := x } := by
  induction ws generalizing s with
  | nil =>
    cases h
    rfl
  | cons w ws ih =>
    obtain ⟨u, hu⟩ := stepWord_answers_next w s
    rw [runWords_cons, hu] at h
    rw [runWords_cons, stepWord_with_inputs x hu]
    exact ih h

theorem runWords_sameOutcome (ws : List CmdWord) :
    ∀ s t : State, SameVisible s t → SameOutcome (runWords ws s) (runWords ws t) := by
  induction ws with
  | nil => exact fun _ _ h => h.next
  | cons w ws ih =>
    intro s t h
    rw [runWords_cons, runWords_cons]
    exact (stepWord_sameOutcome h w).andThen ih

/-- With `STATUS` as reset leaves it every register is hidden, so states with the same moves to come look the same. -/
theorem SameVisible.of_status_reset {s t : State} (hs : s.status = Status.reset) (ht : t.status = Status.reset)
    (hi : s.inputs = t.inputs) : SameVisible s t := by
  rw [sameVisible_iff, hs, ht]
  exact ⟨⟨rfl, nofun, nofun, nofun, nofun⟩, hi⟩

/-- Whatever bits the registers hold and whatever the host does later, words given with `STATUS` as reset leaves it end
in the same ports (R161). -/
theorem runWords_same_ports {s t : State} (hs : s.status = Status.reset) (ht : t.status = Status.reset)
    (ws : List CmdWord) : ∃ u v, runWords ws s = .next u ∧ runWords ws t = .next v ∧ u.ports = v.ports := by
  have hvis : SameVisible s { t with inputs := s.inputs } := .of_status_reset hs ht rfl
  obtain ⟨u, v, hu, hv, huv⟩ := runWords_sameOutcome ws _ _ hvis
  exact ⟨u, { v with inputs := t.inputs }, hu,
    runWords_with_inputs (s := { t with inputs := s.inputs }) t.inputs hv, huv.1⟩

/-! ### A host that presents nothing, and one that idles -/

theorem core_run_of_no_inputs {s : State} (h : s.inputs = []) (n : Nat) : core.run n s = .next s := by
  induction n with
  | zero => rfl
  | succ n ih => rw [core_run_succ_of_step (step_of_no_inputs h), ih]

/-- Edges at which `rst` and `cmd_valid` are 0 are taken one per step, whatever `cmd` is, and nothing else changes. -/
theorem core_run_idle (ws : List CmdWord) (rest : List Edge) : ∀ s : State,
    s.inputs = ws.map (fun w => { rst := false, cmdValid := false, cmd := w }) ++ rest →
    core.run ws.length s = .next { s with inputs := rest } := by
  induction ws with
  | nil =>
    rintro s rfl
    rfl
  | cons w ws ih =>
    intro s hi
    rw [List.length_cons, core_run_succ_of_step (step_of_idle hi rfl rfl)]
    exact ih _ rfl

/-! ### Runs of commands, by the flags alone -/

theorem exec_of_flags_absent {i : Instr} {s : State} (hwf : i.wellFormed = true)
    (hf : flagsPresent i.opcode s.status = false) : exec i s = .next (s.takeFault .euninit) := by
  obtain ⟨_, hx, _⟩ := exec_eq_requireValid hwf s
  rw [hx, requireValid_of_false hf]

theorem exec_of_flags_present {i : Instr} {s : State} (hwf : i.wellFormed = true)
    (hf : flagsPresent i.opcode s.status = true) : ∃ t, exec i s = .next t ∧ t.status.err = s.status.err := by
  obtain ⟨effect, hx, herr⟩ := exec_eq_requireValid hwf s
  exact ⟨effect s, hx.trans (requireValid_of_true hf _ s), herr⟩

/-- The three commands that expand the key set `RKV` where the flags they ask for are 1, and no other flag changes. -/
theorem exec_keyed_status {j : Instr} (hj : j ∈ [.kexp, .enc, .dec]) {s : State}
    (hf : flagsPresent j.opcode s.status = true) : ∃ t, exec j s = .next t ∧ t.status = s.status.keysExpanded := by
  simp only [List.mem_cons, List.not_mem_nil, or_false] at hj
  rcases hj with rfl | rfl | rfl
  · exact ⟨_, exec_kexp_of_valid hf, rfl⟩
  · exact ⟨_, (enc_runsCipher s).trans (requireValid_of_true hf _ s), rfl⟩
  · exact ⟨_, (dec_runsCipher s).trans (requireValid_of_true hf _ s), rfl⟩

/-- From every state with `STATUS` equal to `f`, the commands `is` end in a state whose `STATUS` has the property `P`. -/
def RunEnds (f : Status) (is : List Instr) (P : Status → Prop) : Prop :=
  ∀ s : State, s.status = f → ∃ t, execAll is s = .next t ∧ P t.status

section RunEnds

variable {f : Status} {is : List Instr} {P : Status → Prop}

theorem RunEnds.ldk {k : Word} (h : RunEnds f.keyLoaded is P) : RunEnds f (.ldk k :: is) P :=
  fun s hs => h { s with key := k, status := s.status.keyLoaded } (congrArg Status.keyLoaded hs)

theorem RunEnds.lds {p : Word} (h : RunEnds f.blockLoaded is P) : RunEnds f (.lds p :: is) P :=
  fun s hs => h { s with st := p, status := s.status.blockLoaded } (congrArg Status.blockLoaded hs)

theorem RunEnds.keyed {j : Instr} (hj : j ∈ [.kexp, .enc, .dec]) (hf : flagsPresent j.opcode f = true)
    (h : RunEnds f.keysExpanded is P) : RunEnds f (j :: is) P := by
  rintro s rfl
  obtain ⟨t, ht, hst⟩ := exec_keyed_status hj hf
  obtain ⟨u, hu, hP⟩ := h t hst
  refine ⟨u, ?_, hP⟩
  rw [execAll, List.foldl_cons, andThen_next, ht]
  exact hu

/-- A last command whose flags R149 finds set raises no fault. -/
theorem RunEnds.executes {i : Instr} (h : i.wellFormed = true ∧ flagsPresent i.opcode f = true) (he : f.err = false) :
    RunEnds f [i] (·.err = false) := by
  rintro s rfl
  obtain ⟨hwf, hf⟩ := h
  obtain ⟨t, ht, herr⟩ := exec_of_flags_present hwf hf
  exact ⟨t, ht, herr.trans he⟩

/-- A last command whose flags R149 finds missing raises `EUNINIT`. -/
theorem RunEnds.euninit {i : Instr} (h : i.wellFormed = true ∧ flagsPresent i.opcode f = false) :
    RunEnds f [i] (·.ecode = 3) := by
  rintro s rfl
  obtain ⟨hwf, hf⟩ := h
  exact ⟨_, exec_of_flags_absent hwf hf, rfl⟩

end RunEnds

/-! ### The statements -/

/-- Settles O10: the state after a reset edge is written out, and its flags are all 0. -/
theorem resetLeavesOneState : Obligations.ResetLeavesOneState :=
  fun _ _ _ hi hr => ⟨_, step_of_rst hi hr, rfl, Status.reset_toByte, rfl, State.ports_of_status_reset rfl, rfl, rfl⟩

/-- Settles O58: the two states after reset agree on `STATUS`, and that is all the words given later can tell. -/
theorem resetForgetsThePast : Obligations.ResetForgetsThePast :=
  fun _ _ _ _ _ _ hi hr hi' hr' => ⟨_, _, step_of_rst hi hr, step_of_rst hi' hr', rfl,
    Status.reset_toByte, exec_euninit_of_status_reset rfl, fun _ _ _ _ => rfl, runWords_same_ports rfl rfl⟩

/-- Settles O11: at a reset edge the command pins are not read; every other edge idles or gives the core a word. -/
theorem resetBeatsCommand : Obligations.ResetBeatsCommand := by
  constructor
  · intro s v w rest
    have hreset (v : Bool) (w : CmdWord) :
        step { s with inputs := presentReset v w :: rest } = .next { State.reset with inputs := rest } :=
      step_of_rst rfl rfl
    exact ⟨(hreset v w).trans (hreset false 0).symm, hreset v w⟩
  · intro s t h hrst
    rcases step_next_cases h with ⟨_, rfl⟩ | ⟨e, rest, hi, ⟨hr, _⟩ | ⟨_, _, rfl⟩ | ⟨_, _, hw⟩⟩
    · exact Status.Keeps.refl _
    · cases hr.symm.trans (hrst e rest hi)
    · exact Status.Keeps.refl _
    · exact stepWord_keeps_flags (s := { s with inputs := rest }) hw

/-- Settles O20: the step takes the edge and then does what its word does; the word of `i` decodes to `i`. -/
theorem stepRunsDecodedCommand : Obligations.StepRunsDecodedCommand :=
  ⟨fun _ _ _ _ => step_of_command,
    fun s i hi he => step_of_command (s.withFetchWord_inputs (by decide) (encode i)) he (decodeInvertsEncode i hi)⟩

/-- Settles O21: one law of `stepWord` for each branch, and each branch answers a next state. -/
theorem stepFollowsItsDefinition : Obligations.StepFollowsItsDefinition :=
  ⟨fun s w => ⟨fun he => stepWord_of_err he w, fun he _ => stepWord_of_command he, stepWord_of_rejected,
    stepWord_of_rejected, stepWord_answers_next w s⟩, fun _ => rfl, step_answers_next⟩

/-- Settles O23, by induction on the number of steps and on the list of idle edges. -/
theorem idleHostLeavesRegisters : Obligations.IdleHostLeavesRegisters :=
  ⟨fun _ n h => core_run_of_no_inputs h n, fun s ws rest => core_run_idle ws rest s⟩

/-- Settles O24: each order is its loads in turn, and its last command asks R149's flags of the `STATUS` they leave. -/
theorem bootOrder : Obligations.BootOrder := by
  intro k p s hs
  have ark {n : BitVec 2} (hn : n ≠ 3) : (Instr.ark n).wellFormed = true := bne_iff_ne.mpr hn
  refine ⟨rfl, fun a b => ⟨_, rfl, congrArg Status.err hs⟩, fun i hi => ?_, ?_, fun i hi => ?_, fun i hi => ?_,
    fun i hi => ?_, fun n hn j hj => ⟨?_, fun k' => ?_⟩⟩
  · exact RunEnds.lds (.euninit (by decide +revert)) s hs
  · exact RunEnds.ldk (.executes (by decide) rfl) s hs
  · exact RunEnds.ldk (.keyed (by decide) rfl (.euninit (by decide +revert))) s hs
  · exact RunEnds.lds (.executes (by decide +revert) rfl) s hs
  · exact RunEnds.ldk (.lds (.executes (by decide +revert) rfl)) s hs
  · exact RunEnds.ldk (.lds (.keyed hj (by decide +revert) (.executes ⟨ark hn, rfl⟩ rfl))) s hs
  · exact RunEnds.ldk (.lds (.keyed hj (by decide +revert) (.ldk (.euninit ⟨ark hn, rfl⟩)))) s hs

end Sys2Proof.Safety
end
